-- ==== Sys2Proof/Word.lean ====
section
/-! DEFINITION. The data the block handles: bytes, descriptors, the 16-byte cipher block and the
32-byte key (00_scope.md R6, R13), and the two directions (R27). -/

namespace Sys2Proof

/-- A byte, 0 to 255, never signed (R13). -/
abbrev Byte := BitVec 8

/-- A command or response descriptor, `DESC_WIDTH` = 32 bits, bit 31 the most significant (R7, R13). -/
abbrev Desc := BitVec 32

/-- `Bytes16` of R13: index 0 is the first byte in stream order (R57). -/
abbrev Block := Vector Byte 16

/-- `Bytes32` of R13: `key[0]` is the first key byte the host supplied (R21). -/
abbrev Key := Vector Byte 32

/-- `BLOCK_SIZE` of R6: the cipher block size and the IV size. -/
abbrev blockSize : Nat := 16

/-- `KEY_SIZE` of R6. -/
abbrev keySize : Nat := 32

/-- `MAX_CHUNK` of R7: the largest chunk one UPDATE can announce. -/
abbrev maxChunk : Nat := 65535

/-- "direction ∈ {Encrypt, Decrypt}" (R6, R27); there is no third direction (R83). -/
inductive Dir where
  | encrypt
  | decrypt
  deriving DecidableEq, Repr, Inhabited

/-- What the core answers to an init request: `CoreInit : (draw) -> {ok, fail}` (R8). -/
inductive InitAnswer where
  | ok
  | fail
  deriving DecidableEq, Repr, Inhabited

end Sys2Proof
end

