-- ==== Sys2Proof/Config.lean ====
section
/-! DEFINITION. What the spec leaves to the surroundings of the block: the external cipher core
(00_scope.md R8) and the free values. Every constant here is opaque: nothing in Lean can evaluate it,
so a theorem about it holds for every core and every choice. -/

namespace Sys2Proof

/-- `CoreEnc` of R8, the external core's forward transform. It depends on its two operands alone and
always answers (R8, R56; log entries 1 and 2). -/
opaque Config.coreEnc : Key → Block → Block

/-- `CoreDec` of R8, the external core's inverse transform (log entries 1 and 2). That it inverts
`coreEnc` (`CoreInverse`, R9) is never assumed by the machine. -/
opaque Config.coreDec : Key → Block → Block

/-- The answer of `CoreInit` at the draw with this number (R8, R116): a free value, so that no
relation between the answers at different OPENs can be proved (log entry 4). -/
opaque Config.coreInit : Nat → InitAnswer

/-- What the register `dir` holds once it is void (R28): a free value (log entry 5). -/
opaque Config.voidDir : Nat → Dir

/-- What the register `carry_len` holds once it is void (R28): a free value (log entry 5). -/
opaque Config.voidCarryLen : Nat → BitVec 5

end Sys2Proof
end

