-- ==== Sys2Proof/Syntax.lean ====
section
/-! DEFINITION. The instructions of the block: the four host commands (30_encoding.md R81), one
constructor for each row of spec/opcode_table.json. -/

namespace Sys2Proof

/-- A command as its descriptor announces it. The payload is not part of the descriptor (R80): it is
taken from DIN when the command runs. The source's `context` argument has no field (R81). -/
inductive Instr where
  /-- OPEN, format O (R82): the direction, the number of key bytes and the number of IV bytes. -/
  | openCtx (dir : Dir) (klen ivlen : Nat)
  /-- UPDATE, format U (R85): the chunk length in bytes. -/
  | update (len : Nat)
  /-- FINISH, format N (R86). -/
  | finish
  /-- ABANDON, format N (R86). -/
  | abandon
  deriving DecidableEq, Repr

end Sys2Proof
end

