-- ==== Sys2Proof/WellFormed.lean ====
section
/-! DEFINITION. Which commands have a descriptor: every operand fits its field (30_encoding.md R84,
R85). These are all the limits: any KLEN and IVLEN from 0 to 255 is a well-formed encoding (R84), and
every LEN from 0 to 65535 is legal (R85). -/

namespace Sys2Proof

/-- The operands fit their fields. -/
abbrev Instr.wellFormed : Instr → Prop
  | .openCtx _ klen ivlen => klen < 2 ^ 8 ∧ ivlen < 2 ^ 8
  | .update len => len ≤ maxChunk
  | .finish => True
  | .abandon => True

end Sys2Proof
end

