-- ==== Sys2Proof/Decode.lean ====
section
/-! DEFINITION. Command descriptors: the decoder (30_encoding.md R95), the illegal descriptors by
name (R88), the encoder (R82, R85, R86), how much payload a command owns (R87), the rows of the
opcode table (R95) and the byte form of a descriptor (20_memory.md R58). -/

namespace Sys2Proof

/-- Why a descriptor is illegal (R88). All of them complete with the one status IllegalCommand: the
names are the decoder's, the host never sees them. -/
inductive DecodeError where
  /-- `OPC` is none of 0x01 to 0x04. -/
  | undefinedOpcode (opc : BitVec 8)
  /-- OPEN with a bit of 23..17 set. -/
  | reservedOpen
  /-- UPDATE with a bit of 23..16 set. -/
  | reservedUpdate
  /-- FINISH with a bit of 23..0 set. -/
  | reservedFinish
  /-- ABANDON with a bit of 23..0 set. -/
  | reservedAbandon
  deriving DecidableEq, Repr

/-- The `OPC` field, bits 31..24 (R80). -/
def opcOf (d : Desc) : BitVec 8 := d.extractLsb' 24 8

/-- The direction a DIR bit means (R83): 0 Encrypt, 1 Decrypt. -/
def dirOfBit (b : BitVec 1) : Dir := if b = 0#1 then .encrypt else .decrypt

/-- The DIR bit of a direction, the same value `dir` has (R27, R83). -/
def bitOfDir : Dir → BitVec 1
  | .encrypt => 0#1
  | .decrypt => 1#1

/-- Decoding a descriptor, total (R95): one of the four commands, or illegal by name (R88). -/
def decode (d : Desc) : Except DecodeError Instr :=
  if opcOf d = 0x01#8 then
    if d.extractLsb' 17 7 = 0#7 then
      .ok (.openCtx (dirOfBit (d.extractLsb' 16 1)) (d.extractLsb' 8 8).toNat (d.extractLsb' 0 8).toNat)
    else .error .reservedOpen
  else if opcOf d = 0x02#8 then
    if d.extractLsb' 16 8 = 0#8 then .ok (.update (d.extractLsb' 0 16).toNat)
    else .error .reservedUpdate
  else if opcOf d = 0x03#8 then
    if d.extractLsb' 0 24 = 0#24 then .ok .finish else .error .reservedFinish
  else if opcOf d = 0x04#8 then
    if d.extractLsb' 0 24 = 0#24 then .ok .abandon else .error .reservedAbandon
  else .error (.undefinedOpcode (opcOf d))

/-- The descriptor of a command: formats O (R82), U (R85) and N (R86). -/
def encode : Instr → Desc
  | .openCtx dir klen ivlen => 0x01#8 ++ 0#7 ++ bitOfDir dir ++ BitVec.ofNat 8 klen ++ BitVec.ofNat 8 ivlen
  | .update len => 0x02#8 ++ 0x00#8 ++ BitVec.ofNat 16 len
  | .finish => 0x03#8 ++ 0#24
  | .abandon => 0x04#8 ++ 0#24

/-- How many bytes of DIN a legal command takes, whether it succeeds or fails (R87). -/
def payloadLen : Instr → Nat
  | .openCtx _ klen ivlen => klen + ivlen
  | .update len => len
  | .finish => 0
  | .abandon => 0

/-- The mask and the match of a command's row in spec/opcode_table.json (R95). -/
def rowOf : Instr → Desc × Desc
  | .openCtx _ _ _ => (0xFFFE0000#32, 0x01000000#32)
  | .update _ => (0xFFFF0000#32, 0x02000000#32)
  | .finish => (0xFFFFFFFF#32, 0x03000000#32)
  | .abandon => (0xFFFFFFFF#32, 0x04000000#32)

/-- The four rows (mask, match) of spec/opcode_table.json, in its order: OPEN, UPDATE, FINISH, ABANDON. -/
def tableRows : List (Desc × Desc) :=
  [rowOf (.openCtx .encrypt 0 0), rowOf (.update 0), rowOf .finish, rowOf .abandon]

/-- A row applies to a descriptor exactly when `d & mask = match` (R95). -/
def rowApplies (row : Desc × Desc) (d : Desc) : Bool := decide (d &&& row.1 = row.2)

/-- A descriptor as four bytes, most significant byte first (R58): the opcode or status byte leads. -/
def descToBytes (d : Desc) : List Byte :=
  [d.extractLsb' 24 8, d.extractLsb' 16 8, d.extractLsb' 8 8, d.extractLsb' 0 8]

/-- Four bytes as a descriptor (R58). A partial descriptor is not a descriptor (R59): any other number
of bytes is none. -/
def descOfBytes : List Byte → Option Desc
  | [b3, b2, b1, b0] => some (b3 ++ b2 ++ b1 ++ b0)
  | _ => none

/-- The instruction the decoder reads from a table word of `nbits` bits. Every row of
spec/opcode_table.json has one 32-bit word, and a descriptor is that number (R58), so the bits above
`nbits` are the zeros of the number itself. -/
def decodeTableWord (nbits w : Nat) : Option Instr :=
  if nbits ≤ 32 ∧ w < 2 ^ 32 then
    match decode (BitVec.ofNat 32 w) with
    | .ok i => some i
    | .error _ => none
  else none

end Sys2Proof
end

