-- ==== Sys2Proof/Machine/State.lean ====
section
/-! DEFINITION. The state of the block (10_state.md R20), its ports (20_memory.md R51) and its
surroundings as plain data, the reset state (70_reset_and_hazards.md R221), and why a step can stop. -/

namespace Sys2Proof.Machine

open Sys2Proof

/-- The life-cycle state of the context slot (R25). The bit pattern 0b11 is never produced and is left
out of the type (R26; log entry 21). -/
inductive Phase where
  /-- The slot holds no context. -/
  | idle
  /-- A context is open and accepts UPDATE and FINISH. -/
  | fresh
  /-- FINISH was executed on the context. -/
  | finalized
  deriving DecidableEq, Repr, Inhabited

/-- Which cipher core sits on the CORE port (R8; log entry 3). -/
inductive AttachedCore where
  /-- The external core, of which nothing is known: `Config.coreEnc` and `Config.coreDec`. -/
  | external
  /-- `IdCore` of 95_test_vectors.md section 2. -/
  | identity
  /-- `RotAddCore` of 95_test_vectors.md section 2. -/
  | rotAdd
  deriving DecidableEq, Repr, Inhabited

/-- One request on the CORE port (R56). -/
inductive CoreRequest where
  | init
  | enc (key : Key) (block : Block)
  | dec (key : Key) (block : Block)
  deriving DecidableEq, Repr

/-- The machine. The first six fields are the whole architectural state of the block (R20); `cmd` to
`coreReqs` are its five ports (R51); the rest is what R34 calls parameters of the step, held as plain
data (log entries 3, 4, 12, 20). -/
structure State where
  /-- `phase` (R25). -/
  phase : Phase
  /-- `dir` (R27). Void unless `phase = Fresh` (R28). -/
  dir : Dir
  /-- KEY (R21). Void unless `phase = Fresh`. -/
  key : Key
  /-- CHAIN, the IV register and chaining variable (R22). Void unless `phase = Fresh`. -/
  chain : Block
  /-- CARRY (R23). Void unless `phase = Fresh`, and always at index `carry_len` and above. -/
  carry : Block
  /-- `carry_len`, 5 bits (R24). Void unless `phase = Fresh`. -/
  carryLen : BitVec 5
  /-- CMD: the descriptors the host has written and the block has not taken (R52). -/
  cmd : List Desc
  /-- DIN: the payload bytes the host has written and the block has not taken (R53). -/
  din : List Byte
  /-- DOUT: the output bytes written, in order (R54). -/
  dout : List Byte
  /-- RSP: the response descriptors written, in order (R55). -/
  rsp : List Desc
  /-- CORE: the requests sent, in order (R56). -/
  coreReqs : List CoreRequest
  /-- The attached core (R8). -/
  core : AttachedCore
  /-- The core's answers to the next init requests, oldest first; past its end the answers are free
  values (R116; log entry 4). -/
  initAnswers : List InitAnswer
  /-- The host's reset line (R221; log entry 12). -/
  resetReq : Bool
  /-- How many free values have been drawn: the model's own counter (log entry 20). -/
  draws : Nat
  deriving DecidableEq, Repr

/-- The machine right after reset (R36, R221): `phase = Idle` and the ports empty. The context
registers are void; the values named here are the model's choice (log entry 6), and so are those of
the last four fields (log entries 3, 4, 12, 20). -/
def State.reset : State where
  phase := .idle
  dir := .encrypt
  key := Vector.replicate 32 0#8
  chain := Vector.replicate 16 0#8
  carry := Vector.replicate 16 0#8
  carryLen := 0#5
  cmd := []
  din := []
  dout := []
  rsp := []
  coreReqs := []
  core := .external
  initAnswers := []
  resetReq := false
  draws := 0

/-- Why the machine stops. -/
inductive Fault where
  /-- Raised by OPEN and UPDATE (through `dinTake`) when DIN holds fewer bytes than the descriptor
  announces: the stuck state of R53 and R235. The command does not complete, no status is produced,
  and only reset ends the wait. Safe: nothing is claimed of a stuck command (log entry 11). -/
  | starvedPayload
  deriving DecidableEq, Repr

/-- Why a command has no meaning in the model. -/
inductive Refusal where
  /-- Raised by no arm of `exec`: every command has its meaning. Safe: nothing is claimed of a command
  rejected so. -/
  | notModelled (mnemonic : String)
  deriving DecidableEq, Repr

end Sys2Proof.Machine
end

