-- ==== Sys2Proof/Machine/Flags.lean ====
section
/-! DEFINITION. The block has no condition codes (10_state.md R31): the outcome of a command is the
STATUS of its response. This file holds the ten status codes (30_encoding.md R92), the response word
(R90) and the bit values of `phase` (10_state.md R26). -/

namespace Sys2Proof.Machine

open Sys2Proof

/-- The statuses a command can answer with (R92). -/
inductive Status where
  | ok
  | invalidKeyLength
  | invalidIvLength
  | cipherInitFailure
  | invalidPadding
  | contextFinalized
  | malformedStreamLength
  | illegalCommand
  | noContext
  | contextBusy
  deriving DecidableEq, Repr

/-- The numeric code of a status (R92). -/
def statusCode : Status → BitVec 8
  | .ok => 0x00#8
  | .invalidKeyLength => 0x01#8
  | .invalidIvLength => 0x02#8
  | .cipherInitFailure => 0x03#8
  | .invalidPadding => 0x04#8
  | .contextFinalized => 0x05#8
  | .malformedStreamLength => 0x06#8
  | .illegalCommand => 0x80#8
  | .noContext => 0x81#8
  | .contextBusy => 0x82#8

/-- All ten statuses, in the order of R92. -/
def allStatuses : List Status :=
  [.ok, .invalidKeyLength, .invalidIvLength, .cipherInitFailure, .invalidPadding, .contextFinalized,
    .malformedStreamLength, .illegalCommand, .noContext, .contextBusy]

/-- The status a code names; every other code is never produced (R92). -/
def statusOfCode (c : BitVec 8) : Option Status := allStatuses.find? fun st => statusCode st == c

/-- The response descriptor `{STATUS[7:0], OLEN[23:0]}` (R90). -/
def response (st : Status) (olen : Nat) : Desc := statusCode st ++ BitVec.ofNat 24 olen

/-- The STATUS field of a response (R90). -/
def rspStatus (r : Desc) : BitVec 8 := r.extractLsb' 24 8

/-- The OLEN field of a response (R90). -/
def rspOlen (r : Desc) : Nat := (r.extractLsb' 0 24).toNat

/-- The bit values of `phase` (R26): no command exposes them. -/
def phaseBits : Phase → BitVec 2
  | .idle => 0b00#2
  | .fresh => 0b01#2
  | .finalized => 0b10#2

end Sys2Proof.Machine
end

