-- ==== Sys2Proof/Machine/Operands.lean ====
section
/-! DEFINITION. The operand forms: byte sequences of fixed length made from payload bytes
(00_scope.md R13), the exclusive OR of two cipher blocks (R13), the valid bytes of CARRY
(10_state.md R23), and the answers of the cipher core (R8, 95_test_vectors.md section 2). -/

namespace Sys2Proof.Machine

open Sys2Proof

/-- The first `n` bytes of a sequence as `BytesN` (R13). It is used on sequences of exactly `n` bytes;
a shorter one would be filled with zeros. -/
def bytesOf (n : Nat) (l : List Byte) : Vector Byte n := Vector.ofFn fun i => l.getD i.val 0#8

/-- `a xor b` on two 16-byte blocks: `(a xor b)[i] = a[i] xor b[i]` (R13; log entry 15). -/
def xorBlock (a b : Block) : Block := Vector.ofFn fun i => a[i] ^^^ b[i]

/-- `carry[0..carry_len-1]`, the valid bytes of CARRY (R23). -/
def carryBytes (s : State) : List Byte := s.carry.toList.take s.carryLen.toNat

/-- `RotAddCore`'s `CoreEnc` (95_test_vectors.md section 2):
`((b[(i+1) mod 16] + k[i]) mod 256) xor k[16+i]`. -/
def rotAddEnc (k : Key) (b : Block) : Block :=
  Vector.ofFn fun i => (b[(i.val + 1) % 16] + k[i.val]) ^^^ k[16 + i.val]

/-- `RotAddCore`'s `CoreDec` (95_test_vectors.md section 2): byte `(i+1) mod 16` of the result is
`((c[i] xor k[16+i]) - k[i]) mod 256`, so byte `j` is made from byte `(j+15) mod 16`. -/
def rotAddDec (k : Key) (y : Block) : Block :=
  Vector.ofFn fun j =>
    (y[(j.val + 15) % 16] ^^^ k[16 + (j.val + 15) % 16]) - k[(j.val + 15) % 16]

/-- `CoreEnc(k, b)` of the attached core (R8). -/
def coreEnc : AttachedCore → Key → Block → Block
  | .external, k, b => Config.coreEnc k b
  | .identity, _, b => b
  | .rotAdd, k, b => rotAddEnc k b

/-- `CoreDec(k, c)` of the attached core (R8). -/
def coreDec : AttachedCore → Key → Block → Block
  | .external, k, c => Config.coreDec k c
  | .identity, _, c => c
  | .rotAdd, k, c => rotAddDec k c

end Sys2Proof.Machine
end

