-- ==== Sys2Proof/Machine/Ops.lean ====
section
/-! DEFINITION. The named operations over the registers and the ports: taking and putting bytes
(00_scope.md R14), responding (30_encoding.md R90), raising an error (60_exceptions.md R196), the core
requests (20_memory.md R56), the two chaining procedures (41_update.md R138, R139), CARRY, release
(40_open_abandon.md R121), the illegal command (R199), reset (70_reset_and_hazards.md R221), and the
host's own moves (43_host_stream_protocol.md R179). -/

namespace Sys2Proof.Machine

open Sys2Proof

/-- `DinTake(n)` (R14, R53): the next `n` bytes of DIN, removed; none when DIN holds fewer. -/
def dinTake (n : Nat) (s : State) : Option (List Byte × State) :=
  if n ≤ s.din.length then some (s.din.take n, { s with din := s.din.drop n }) else none

/-- `DoutPut(bytes)` (R14, R54): append to DOUT in index order. -/
def doutPut (bytes : List Byte) (s : State) : State := { s with dout := s.dout ++ bytes }

/-- `Respond(status, olen)` (R14, R90): one response descriptor on RSP. -/
def respond (st : Status) (olen : Nat) (s : State) : State :=
  { s with rsp := s.rsp ++ [response st olen] }

/-- A command that succeeds: its output bytes on DOUT and its response (R131, R151). -/
def complete (out : List Byte) (s : State) : State := respond .ok out.length (doutPut out s)

/-- `raise <Error>` (R196), the block's taking of an exception: a response with the error's code and
OLEN 0, no output byte and no change of state. The payload has been taken by the command, and the two
errors of FINISH that do change the state raise after `finalize`. There is no return from an error
(R203): it saves nothing. -/
def raise (e : Status) (s : State) : State := respond e 0 s

/-- One request sent on the CORE port (R56). -/
def sendCore (r : CoreRequest) (s : State) : State := { s with coreReqs := s.coreReqs ++ [r] }

/-- The answer of `CoreInit` at this OPEN (R116): the next queued answer, else a free value. -/
def initAnswer (s : State) : InitAnswer :=
  match s.initAnswers with
  | a :: _ => a
  | [] => Config.coreInit s.draws

/-- The init request sent and its answer used up (R56, R116): the block remembers nothing of it. -/
def askInit (s : State) : State :=
  match s.initAnswers with
  | _ :: rest => sendCore .init { s with initAnswers := rest }
  | [] => sendCore .init { s with draws := s.draws + 1 }

/-- `CbcEncBlock(P)` (R138): combine with CHAIN, one `CoreEnc` request, the result to CHAIN. -/
def cbcEncBlock (p : Block) (s : State) : Block × State :=
  let x := xorBlock p s.chain
  let c := coreEnc s.core s.key x
  (c, { sendCore (.enc s.key x) s with chain := c })

/-- `CbcDecBlock(C)` (R139): one `CoreDec` request, combine with the old CHAIN, C to CHAIN. -/
def cbcDecBlock (c : Block) (s : State) : Block × State :=
  let x := coreDec s.core s.key c
  (xorBlock x s.chain, { sendCore (.dec s.key c) s with chain := c })

/-- `carry[carry_len] <- b; carry_len <- carry_len + 1` (R134, R136). Where `carry_len` is above 15
there is no such byte and nothing is stored: no rule comes there (log entry 13). -/
def carryPut (b : Byte) (s : State) : State :=
  { s with carry := s.carry.setIfInBounds s.carryLen.toNat b, carryLen := s.carryLen + 1#5 }

/-- `carry_len <- 0` (R134, R136): no byte of CARRY is valid any more. -/
def carryClear (s : State) : State := { s with carryLen := 0#5 }

/-- Release (R28, R121): KEY, CHAIN and CARRY overwritten with zeros; `dir` and `carry_len` void,
which the model says by free values (log entry 5). -/
def release (s : State) : State :=
  { s with
    key := Vector.replicate 32 0#8
    chain := Vector.replicate 16 0#8
    carry := Vector.replicate 16 0#8
    dir := Config.voidDir s.draws
    carryLen := Config.voidCarryLen s.draws
    draws := s.draws + 1 }

/-- The end of a context at FINISH (R157): release, and `phase <- Finalized`. -/
def finalize (s : State) : State := { release s with phase := .finalized }

/-- The next descriptor taken from CMD (R52): the oldest, removed; none when CMD is empty. -/
def takeDesc (s : State) : Option (Desc × State) :=
  match s.cmd with
  | d :: rest => some (d, { s with cmd := rest })
  | [] => none

/-- What an illegal descriptor does (R88, R199): IllegalCommand, no payload taken, no state change. -/
def illegalCommand (s : State) : State := raise .illegalCommand s

/-- The reset event (R221): `phase = Idle`, the context registers void, the ports empty, whatever the
state was. What is attached to the block and the draws to come stay (log entry 24). -/
def resetEvent (s : State) : State :=
  { State.reset with core := s.core, initAnswers := s.initAnswers, draws := s.draws }

/-- The host writes one command: a descriptor to CMD and payload bytes to DIN (R52, R53). -/
def hostWrite (d : Desc) (payload : List Byte) (s : State) : State :=
  { s with cmd := s.cmd ++ [d], din := s.din ++ payload }

/-- The host pulls reset (R179, R221). -/
def hostReset (s : State) : State := { s with resetReq := true }

/-- The host reads the oldest response (R55). -/
def hostTakeResponse (s : State) : Option (Desc × State) :=
  match s.rsp with
  | r :: rest => some (r, { s with rsp := rest })
  | [] => none

/-- The host reads `n` output bytes (R54, R66). -/
def hostTakeOutput (n : Nat) (s : State) : Option (List Byte × State) :=
  if n ≤ s.dout.length then some (s.dout.take n, { s with dout := s.dout.drop n }) else none

end Sys2Proof.Machine
end

