-- ==== Sys2Proof/Machine/Finish.lean ====
section
/-! DEFINITION. FINISH: the padding applier, the length check, the padding validator and remover
(42_finish.md R150 to R165). -/

namespace Sys2Proof.Machine

open Sys2Proof

/-- `Pad(R)` (R153): N bytes of value N, N = 16 - (len(R) mod 16). -/
def pad (r : List Byte) : Block :=
  let n := 16 - r.length % 16
  bytesOf 16 (r ++ List.replicate n (BitVec.ofNat 8 n))

/-- `Unpad(X)` (R156): the last byte N must be 1 to 16 and the last N bytes must all be N; then the
bytes before them. The check is exactly this one and no stronger (R161). -/
def unpad (x : Block) : Option (List Byte) :=
  let n := x[15].toNat
  if n < 1 ∨ 16 < n then none
  else if (x.toList.drop (16 - n)).all (fun b => b == x[15]) then some (x.toList.take (16 - n))
  else none

/-- FINISH on a Fresh context in direction Encrypt (R152): exactly one block, of CARRY padded. -/
def finishEnc (s : State) : State :=
  let r := cbcEncBlock (pad (carryBytes s)) s
  complete r.1.toList (finalize r.2)

/-- FINISH on a Fresh context in direction Decrypt (R155): the length check (R158), then the withheld
block decrypted, validated and stripped. The context ends in every case (R157). -/
def finishDec (s : State) : State :=
  if s.carryLen ≠ 16#5 then raise .malformedStreamLength (finalize s)
  else
    let r := cbcDecBlock s.carry s
    match unpad r.1 with
    | none => raise .invalidPadding (finalize r.2)
    | some v => complete v (finalize r.2)

/-- FINISH (R151). -/
def execFinish (s : State) : Host.Outcome State Fault Refusal :=
  .next <|
    match s.phase with
    | .idle => raise .noContext s
    | .finalized => raise .contextFinalized s
    | .fresh =>
      match s.dir with
      | .encrypt => finishEnc s
      | .decrypt => finishDec s

end Sys2Proof.Machine
end

