-- ==== Sys2Proof/Machine/LifeCycle.lean ====
section
/-! DEFINITION. OPEN and ABANDON, the commands that begin a context and give one up
(40_open_abandon.md R110 to R123). -/

namespace Sys2Proof.Machine

open Sys2Proof

/-- OPEN, success (R117): the key, the IV as first chaining value, the direction, an empty CARRY. -/
def openContext (dir : Dir) (kbytes ivbytes : List Byte) (s : State) : State :=
  { s with
    key := bytesOf 32 kbytes
    chain := bytesOf 16 ivbytes
    dir := dir
    carryLen := 0#5
    phase := .fresh }

/-- OPEN once its payload is taken: the checks in the order of R118. -/
def openChecked (dir : Dir) (klen ivlen : Nat) (kbytes ivbytes : List Byte) (s : State) : State :=
  if s.phase = .fresh then raise .contextBusy s
  else if klen ≠ keySize then raise .invalidKeyLength s
  else if ivlen ≠ blockSize then raise .invalidIvLength s
  else
    match initAnswer s with
    | .fail => raise .cipherInitFailure (askInit s)
    | .ok => complete [] (openContext dir kbytes ivbytes (askInit s))

/-- OPEN (R118): the key bytes, then the IV bytes, are taken whatever the outcome (R113). -/
def execOpen (dir : Dir) (klen ivlen : Nat) (s : State) : Host.Outcome State Fault Refusal :=
  match dinTake klen s with
  | none => .fault .starvedPayload
  | some (kbytes, s1) =>
    match dinTake ivlen s1 with
    | none => .fault .starvedPayload
    | some (ivbytes, s2) => .next (openChecked dir klen ivlen kbytes ivbytes s2)

/-- ABANDON (R120): admitted in every phase, always OK. Outside Fresh the context registers are void
already and stay as they are (log entry 23). -/
def execAbandon (s : State) : Host.Outcome State Fault Refusal :=
  .next (complete [] { (if s.phase = .fresh then release s else s) with phase := .idle })

end Sys2Proof.Machine
end

