-- ==== Sys2Proof/Machine/Update.lean ====
section
/-! DEFINITION. UPDATE: the input chunker, byte by byte, in both directions (41_update.md R130 to
R145). -/

namespace Sys2Proof.Machine

open Sys2Proof

/-- One chunk byte in direction Encrypt (R134): a CARRY that becomes full is encrypted at once. -/
def encByte (b : Byte) (s : State) : List Byte × State :=
  let s1 := carryPut b s
  if s1.carryLen = 16#5 then
    let r := cbcEncBlock s1.carry s1
    (r.1.toList, carryClear r.2)
  else ([], s1)

/-- `UpdateEnc(chunk)` (R134), in arrival order. -/
def updateEnc : List Byte → State → List Byte × State
  | [], s => ([], s)
  | b :: chunk, s =>
    let r := encByte b s
    let r' := updateEnc chunk r.2
    (r.1 ++ r'.1, r'.2)

/-- One chunk byte in direction Decrypt (R136): a full CARRY is decrypted only now that a byte beyond
it has arrived. -/
def decByte (b : Byte) (s : State) : List Byte × State :=
  if s.carryLen = 16#5 then
    let r := cbcDecBlock s.carry s
    (r.1.toList, carryPut b (carryClear r.2))
  else ([], carryPut b s)

/-- `UpdateDec(chunk)` (R136), in arrival order. -/
def updateDec : List Byte → State → List Byte × State
  | [], s => ([], s)
  | b :: chunk, s =>
    let r := decByte b s
    let r' := updateDec chunk r.2
    (r.1 ++ r'.1, r'.2)

/-- UPDATE on a Fresh context (R131): the chunk through the chunker of `dir`, then OK. -/
def updateFresh (chunk : List Byte) (s : State) : State :=
  match s.dir with
  | .encrypt => let r := updateEnc chunk s; complete r.1 r.2
  | .decrypt => let r := updateDec chunk s; complete r.1 r.2

/-- UPDATE once its payload is taken (R131). -/
def updateChecked (chunk : List Byte) (s : State) : State :=
  match s.phase with
  | .idle => raise .noContext s
  | .finalized => raise .contextFinalized s
  | .fresh => updateFresh chunk s

/-- UPDATE (R131): the chunk is taken in every case (R87). -/
def execUpdate (len : Nat) (s : State) : Host.Outcome State Fault Refusal :=
  match dinTake len s with
  | none => .fault .starvedPayload
  | some (chunk, s1) => .next (updateChecked chunk s1)

end Sys2Proof.Machine
end

