-- ==== Sys2Proof/Machine/Dispatch.lean ====
section
/-! DEFINITION. Which meaning each command has: one arm per row of spec/opcode_table.json. -/

namespace Sys2Proof.Machine

open Sys2Proof

/-- The meaning of a command, in the state its descriptor has been taken from (30_encoding.md R81). -/
def exec (i : Instr) (s : State) : Host.Outcome State Fault Refusal :=
  match i with
  | .openCtx dir klen ivlen => Sys2Proof.Machine.execOpen dir klen ivlen s
  | .update len => Sys2Proof.Machine.execUpdate len s
  | .finish => Sys2Proof.Machine.execFinish s
  | .abandon => Sys2Proof.Machine.execAbandon s

end Sys2Proof.Machine
end

