-- ==== Sys2Proof/Machine/Step.lean ====
section
/-! DEFINITION. One step of the machine: one whole command (00_scope.md R12), or the reset event
(70_reset_and_hazards.md R221). -/

namespace Sys2Proof.Machine

open Sys2Proof

/-- One step (R12, R65). A pulled reset line is served before the next command (R221; log entry 12).
With no descriptor on CMD the block is idle and holds its state (R212; log entry 10). Otherwise the
oldest descriptor is taken, decoded, and its command runs to completion; an illegal one is answered. -/
def step (s : State) : Host.Outcome State Fault Refusal :=
  if s.resetReq then .next (resetEvent s)
  else
    match takeDesc s with
    | none => .next s
    | some (d, s1) =>
      match decode d with
      | .ok i => exec i s1
      | .error _ => .next (illegalCommand s1)

/-- `s` with a table word where `step` takes its next command: the descriptor in front of CMD, and in
front of DIN the payload it announces, as zeros; the reset line is let go, so that the very next step
runs the command (log entry 17). Every row has one 32-bit word, so `nbits` adds nothing. -/
def State.withFetchWord (s : State) (_nbits w : Nat) : State :=
  let d : Desc := BitVec.ofNat 32 w
  let n := match decode d with
    | .ok i => payloadLen i
    | .error _ => 0
  { s with cmd := d :: s.cmd, din := List.replicate n 0#8 ++ s.din, resetReq := false }

end Sys2Proof.Machine
end

