-- ==== Sys2Proof/Machine/HostProtocol.lean ====
section
/-! DEFINITION. The host around the block: its commands and how it reads the replies, the sessions that
end at the first error (43_host_stream_protocol.md R175), the stream format (20_memory.md R61), the
early length check (R174) and the pseudo-commands ENCRYPT_STREAM (R171) and DECRYPT_STREAM (R173;
30_encoding.md R94). Nothing here is done by the block (R170). -/

namespace Sys2Proof.Machine

open Sys2Proof

/-- One command of the host with the payload it writes for it. -/
structure HostCommand where
  instr : Instr
  payload : List Byte
  deriving DecidableEq, Repr

/-- The host writes one command to CMD and DIN and the block makes its step (R12, R52). -/
def transact (c : HostCommand) (s : State) : Host.Outcome State Fault Refusal :=
  step (hostWrite (encode c.instr) c.payload s)

/-- The host reads one reply: the oldest response, and the OLEN bytes it announces from DOUT (R55,
R179). None where there is no response, no such many bytes, or a status that is never produced. -/
def readReply (s : State) : Option (Status × List Byte) × State :=
  match hostTakeResponse s with
  | none => (none, s)
  | some (r, s1) =>
    match hostTakeOutput (rspOlen r) s1 with
    | none => (none, s1)
    | some (out, s2) =>
      match statusOfCode (rspStatus r) with
      | none => (none, s2)
      | some st => (some (st, out), s2)

/-- One command and its reply. -/
def exchange (c : HostCommand) (s : State) :
    Host.Outcome (Option (Status × List Byte) × State) Fault Refusal :=
  match transact c s with
  | .next t => .next (readReply t)
  | .fault r => .fault r
  | .refused r => .refused r

/-- How a session of the host ends. -/
inductive Ending where
  /-- Every command answered OK. -/
  | complete
  /-- A command answered this status, or the host found it itself before OPEN (R174, R175). -/
  | failed (st : Status)
  /-- The host rejected a stream that holds no complete IV, for which the source names no error (R174;
  log entry 26). -/
  | noIv
  /-- The host gave the stream up by itself (R175, R179). -/
  | gaveUp
  /-- The host got no reply: reset came first, or RSP and DOUT were not in step (log entry 25). -/
  | noReply
  deriving DecidableEq, Repr

/-- What a session leaves: how it ended, what the host then has (nothing, when it did not complete:
R175), and the block. -/
structure Session where
  ending : Ending
  output : List Byte
  state : State
  deriving DecidableEq, Repr

/-- After which statuses the phase may still be Fresh (R111), so that the host owes an ABANDON (R175,
R229; log entry 25). -/
def mayBeFresh : Status → Bool
  | .ok => true
  | .invalidKeyLength => false
  | .invalidIvLength => false
  | .cipherInitFailure => false
  | .invalidPadding => false
  | .contextFinalized => false
  | .malformedStreamLength => false
  | .illegalCommand => true
  | .noContext => false
  | .contextBusy => true

/-- The host gives the stream up: ABANDON, and all output received so far is discarded (R175, R179). -/
def giveUp (ending : Ending) (s : State) : Host.Outcome Session Fault Refusal :=
  match exchange ⟨.abandon, []⟩ s with
  | .next (_, t) => .next ⟨ending, [], t⟩
  | .fault r => .fault r
  | .refused r => .refused r

/-- What the host does on a status that is not OK (R175): no retry, ABANDON if the phase may still be
Fresh, all output received so far discarded. -/
def stopOnError (st : Status) (s : State) : Host.Outcome Session Fault Refusal :=
  if mayBeFresh st then giveUp (.failed st) s else .next ⟨.failed st, [], s⟩

/-- A command sequence of the host: each reply's bytes are appended to what it has, and the first
status that is not OK, or a missing reply, ends the session (R171, R173, R175). -/
def runSession : List HostCommand → List Byte → State → Host.Outcome Session Fault Refusal
  | [], got, s => .next ⟨.complete, got, s⟩
  | c :: cs, got, s =>
    match exchange c s with
    | .next (some (st, out), t) => if st = .ok then runSession cs (got ++ out) t else stopOnError st t
    | .next (none, t) => giveUp .noReply t
    | .fault r => .fault r
    | .refused r => .refused r

/-- A session the host abandons by itself after `n` commands: its own error path (R175, R229). -/
def abandonAfter (n : Nat) (cs : List HostCommand) (s : State) : Host.Outcome Session Fault Refusal :=
  match runSession (cs.take n) [] s with
  | .next r => if r.ending = .complete then giveUp .gaveUp r.state else .next r
  | .fault r => .fault r
  | .refused r => .refused r

/-- A byte sequence in chunks of `MAX_CHUNK` (30_encoding.md R85); `fuel` bounds their number. -/
def fullChunks : Nat → List Byte → List (List Byte)
  | 0, _ => []
  | fuel + 1, bytes =>
    if bytes = [] then [] else bytes.take maxChunk :: fullChunks fuel (bytes.drop maxChunk)

/-- A byte sequence split in order (R171, R173: any split, each chunk 0 to 65535 bytes): first at the
given lengths, and what is left in chunks of `MAX_CHUNK`. -/
def chunksOf : List Nat → List Byte → List (List Byte)
  | [], bytes => fullChunks bytes.length bytes
  | n :: lens, bytes => bytes.take (min n maxChunk) :: chunksOf lens (bytes.drop (min n maxChunk))

/-- One OPEN, an UPDATE for each chunk in order, one FINISH. -/
def streamCommands (dir : Dir) (key iv : List Byte) (chunks : List (List Byte)) : List HostCommand :=
  ⟨.openCtx dir key.length iv.length, key ++ iv⟩
    :: chunks.map (fun c => ⟨.update c.length, c⟩) ++ [⟨.finish, []⟩]

/-- The stream of R61: the IV in the clear, then the ciphertext. -/
def streamOf (iv ciphertext : List Byte) : List Byte := iv ++ ciphertext

/-- The length check of R174: a stream of 16 + 16*N bytes, N at least 1. -/
def streamLengthOk (stream : List Byte) : Bool :=
  decide (32 ≤ stream.length) && decide ((stream.length - 16) % 16 = 0)

/-- `ENCRYPT_STREAM key, M` with the IV the host drew (R171, R172) and a split of M: the host writes the
IV to the stream, and then the output of each command. -/
def encryptStream (key iv message : List Byte) (lens : List Nat) (s : State) :
    Host.Outcome Session Fault Refusal :=
  runSession (streamCommands .encrypt key iv (chunksOf lens message)) (streamOf iv []) s

/-- `DECRYPT_STREAM key, S` with a split of `S[16..]` (R173). No host issues OPEN with a short IV, and one
that knows the length of S rejects an invalid one before OPEN (R174; log entry 26). -/
def decryptStream (key stream : List Byte) (knowsLength : Bool) (lens : List Nat) (s : State) :
    Host.Outcome Session Fault Refusal :=
  if stream.length < blockSize then .next ⟨.noIv, [], s⟩
  else if knowsLength && !streamLengthOk stream then .next ⟨.failed .malformedStreamLength, [], s⟩
  else
    runSession
      (streamCommands .decrypt key (stream.take blockSize) (chunksOf lens (stream.drop blockSize))) [] s

end Sys2Proof.Machine
end

