-- ==== Sys2Proof/Safety.lean ====
section
/-! DEFINITION. The terms claims use: the invariant between commands (10_state.md R29), `CoreInverse`
(00_scope.md R9), the block-wise reading of a stream (41_update.md R135, R137 to R139), the life-cycle
table (40_open_abandon.md R111), and which states the host cannot tell apart (10_state.md R28). -/

namespace Sys2Proof.Machine

open Sys2Proof

/-- Invariants 2 and 3 of R29: what `carry_len` can be in a Fresh context. (Invariant 1 is the type of
`phase`; invariants 4 and 5 speak of the stream since OPEN and are statements of their own.) -/
abbrev State.Inv (s : State) : Prop :=
  s.phase = .fresh → s.carryLen.toNat ≤ match s.dir with
    | .encrypt => 15
    | .decrypt => 16

/-- `CoreInverse` of R9, of the attached core: a premise of claims, never used by the machine. -/
def CoreInverse (c : AttachedCore) : Prop := ∀ k b, coreDec c k (coreEnc c k b) = b

/-- The first `m` cipher blocks of a byte sequence: block `k` is `S[16k .. 16k+15]` (R135, R137). -/
def blocksOf (m : Nat) (bytes : List Byte) : List Block :=
  (List.range m).map fun k => bytesOf 16 ((bytes.drop (16 * k)).take 16)

/-- The bytes of cipher blocks in stream order (R54). -/
def bytesOfBlocks (blocks : List Block) : List Byte := (blocks.map Vector.toList).flatten

/-- The ciphertext blocks of plaintext blocks, each combined with the one before it, the first with the
given chaining value (R138, R140). -/
def cbcEncrypt (core : AttachedCore) (key : Key) : Block → List Block → List Block
  | _, [] => []
  | chain, p :: ps =>
    let c := coreEnc core key (xorBlock p chain)
    c :: cbcEncrypt core key c ps

/-- The plaintext blocks of ciphertext blocks (R139, R140). -/
def cbcDecrypt (core : AttachedCore) (key : Key) : Block → List Block → List Block
  | _, [] => []
  | chain, c :: cs => xorBlock (coreDec core key c) chain :: cbcDecrypt core key c cs

/-- The last of some blocks, or the given one when there is none: what CHAIN holds afterwards (R29.5). -/
def lastBlock (chain : Block) (blocks : List Block) : Block := blocks.getLastD chain

/-- A sequence of UPDATE commands with these lengths, run one after the other. -/
def runUpdates : List Nat → State → Host.Outcome State Fault Refusal
  | [], s => .next s
  | n :: ns, s =>
    match exec (.update n) s with
    | .next t => runUpdates ns t
    | .fault r => .fault r
    | .refused r => .refused r

/-- The transition table of R111: the statuses a command can answer with in a state, each with the
phase after it. -/
def transitions (i : Instr) (s : State) : List (Status × Phase) :=
  match i, s.phase with
  | .openCtx _ _ _, .idle =>
    [(.ok, .fresh), (.invalidKeyLength, .idle), (.invalidIvLength, .idle), (.cipherInitFailure, .idle)]
  | .openCtx _ _ _, .fresh => [(.contextBusy, .fresh)]
  | .openCtx _ _ _, .finalized =>
    [(.ok, .fresh), (.invalidKeyLength, .finalized), (.invalidIvLength, .finalized),
      (.cipherInitFailure, .finalized)]
  | .update _, .idle => [(.noContext, .idle)]
  | .update _, .fresh => [(.ok, .fresh)]
  | .update _, .finalized => [(.contextFinalized, .finalized)]
  | .finish, .idle => [(.noContext, .idle)]
  | .finish, .fresh =>
    match s.dir with
    | .encrypt => [(.ok, .finalized)]
    | .decrypt => [(.ok, .finalized), (.malformedStreamLength, .finalized), (.invalidPadding, .finalized)]
  | .finish, .finalized => [(.contextFinalized, .finalized)]
  | .abandon, _ => [(.ok, .idle)]

/-- The status OPEN answers with, by the fixed order of checks (R118, R202). -/
def openStatus (klen ivlen : Nat) (s : State) : Status :=
  if s.phase = .fresh then .contextBusy
  else if klen ≠ keySize then .invalidKeyLength
  else if ivlen ≠ blockSize then .invalidIvLength
  else match initAnswer s with
    | .fail => .cipherInitFailure
    | .ok => .ok

/-- The six registers of the context slot are the same (R20). -/
abbrev SameRegisters (s t : State) : Prop :=
  t.phase = s.phase ∧ t.dir = s.dir ∧ t.key = s.key ∧ t.chain = s.chain ∧ t.carry = s.carry
    ∧ t.carryLen = s.carryLen

/-- KEY, CHAIN and CARRY hold zeros, as release leaves them (R28, R121). -/
abbrev Released (t : State) : Prop :=
  t.key = Vector.replicate 32 0#8 ∧ t.chain = Vector.replicate 16 0#8 ∧ t.carry = Vector.replicate 16 0#8

/-- Two states that differ at most in void register contents: everything outside the registers and
`phase` is the same, and in a Fresh context so are `dir`, KEY, CHAIN, `carry_len` and the valid bytes
of CARRY (R23, R28). -/
abbrev SameButVoid (s t : State) : Prop :=
  s.phase = t.phase ∧ s.cmd = t.cmd ∧ s.din = t.din ∧ s.dout = t.dout ∧ s.rsp = t.rsp
    ∧ s.coreReqs = t.coreReqs ∧ s.core = t.core ∧ s.initAnswers = t.initAnswers
    ∧ s.resetReq = t.resetReq ∧ s.draws = t.draws
    ∧ (s.phase = .fresh → s.dir = t.dir ∧ s.key = t.key ∧ s.chain = t.chain ∧ s.carryLen = t.carryLen
        ∧ carryBytes s = carryBytes t)

/-- Two outcomes that differ at most in void register contents. -/
def OutcomeSameButVoid : Host.Outcome State Fault Refusal → Host.Outcome State Fault Refusal → Prop
  | .next s, .next t => SameButVoid s t
  | .fault a, .fault b => a = b
  | .refused a, .refused b => a = b
  | _, _ => False

/-- Nothing is waiting on the four host ports and no reset is pending: the host has read every reply of
the commands before, and RSP and DOUT are in step with it (R55, R179). -/
abbrev HostSynced (s : State) : Prop :=
  s.cmd = [] ∧ s.din = [] ∧ s.dout = [] ∧ s.rsp = [] ∧ s.resetReq = false

/-- The most core requests a command makes (70_reset_and_hazards.md R237); UPDATE makes none outside
Fresh. -/
def maxCoreRequests (i : Instr) (s : State) : Nat :=
  match i, s.phase with
  | .openCtx _ _ _, _ => 1
  | .update len, .fresh => (s.carryLen.toNat + len) / 16
  | .update _, _ => 0
  | .finish, _ => 1
  | .abandon, _ => 0

end Sys2Proof.Machine
end

