-- ==== Sys2Proof/Certificates/Slice0/Obligations.lean ====
section
/-! DEFINITION. The statements about the block, each from the rules of spec/ its docstring names. -/

open Sys2Proof Sys2Proof.Machine

/-! ### Descriptors -/

/-- R82, R85, R86, R95: decoding the descriptor of a well-formed command gives that command back, with
every operand at every value its field admits. -/
def Obligations.DecodeInvertsEncode : Prop := ∀ i : Instr, i.wellFormed → decode (encode i) = .ok i

/-- R82, R85, R86, R95: a descriptor that decodes is the encoding of its command, and that command is
well formed: no bit of a legal descriptor is ignored. -/
def Obligations.EncodeInvertsDecode : Prop :=
  ∀ (d : Desc) (i : Instr), decode d = .ok i → i.wellFormed ∧ encode i = d

/-- R95: a descriptor decodes to a command exactly when it lies in that command's row of the opcode
table, the operands are the numbers in bits 16, 15..8, 7..0 and 15..0, at most one row applies, and
what no row matches is illegal. -/
def Obligations.DecodeReadsTableRows : Prop :=
  ∀ d : Desc,
    (∀ i : Instr, decode d = .ok i ↔
      (d &&& 0xFFFE0000#32 = 0x01000000#32 ∧
        i = .openCtx (if d.toNat / 2 ^ 16 % 2 = 0 then .encrypt else .decrypt)
          (d.toNat / 2 ^ 8 % 2 ^ 8) (d.toNat % 2 ^ 8)) ∨
      (d &&& 0xFFFF0000#32 = 0x02000000#32 ∧ i = .update (d.toNat % 2 ^ 16)) ∨
      (d = 0x03000000#32 ∧ i = .finish) ∨
      (d = 0x04000000#32 ∧ i = .abandon)) ∧
    (tableRows.filter fun row => rowApplies row d).length ≤ 1 ∧
    ((∃ e, decode d = .error e) ↔ ∀ row ∈ tableRows, rowApplies row d = false)

/-- R88, R199: which descriptors are illegal, and what the block does with one in any phase: it answers
IllegalCommand, takes no payload, writes no output and changes no register. -/
def Obligations.IllegalDescriptorIsAnswered : Prop :=
  ∀ d : Desc,
    ((∃ e, decode d = .error e) ↔
      (d.toNat / 2 ^ 24 ≠ 1 ∧ d.toNat / 2 ^ 24 ≠ 2 ∧ d.toNat / 2 ^ 24 ≠ 3 ∧ d.toNat / 2 ^ 24 ≠ 4) ∨
      (d.toNat / 2 ^ 24 = 1 ∧ d.toNat / 2 ^ 17 % 2 ^ 7 ≠ 0) ∨
      (d.toNat / 2 ^ 24 = 2 ∧ d.toNat / 2 ^ 16 % 2 ^ 8 ≠ 0) ∨
      ((d.toNat / 2 ^ 24 = 3 ∨ d.toNat / 2 ^ 24 = 4) ∧ d.toNat % 2 ^ 24 ≠ 0)) ∧
    ∀ (s : State) (rest : List Desc), s.resetReq = false → s.cmd = d :: rest → (∃ e, decode d = .error e) →
      step s = .next { s with cmd := rest, rsp := s.rsp ++ [0x80000000#32] }

/-- R96: the worked encodings, commands and responses. -/
def Obligations.WorkedEncodings : Prop :=
  decode 0x01002010#32 = .ok (.openCtx .encrypt 32 16) ∧
  decode 0x01012010#32 = .ok (.openCtx .decrypt 32 16) ∧
  decode 0x01001010#32 = .ok (.openCtx .encrypt 16 16) ∧
  decode 0x02000000#32 = .ok (.update 0) ∧
  decode 0x02000005#32 = .ok (.update 5) ∧
  decode 0x0200FFFF#32 = .ok (.update 65535) ∧
  decode 0x03000000#32 = .ok .finish ∧
  decode 0x04000000#32 = .ok .abandon ∧
  decode 0x00000000#32 = .error (.undefinedOpcode 0#8) ∧
  decode 0x03000001#32 = .error .reservedFinish ∧
  decode 0x01022010#32 = .error .reservedOpen ∧
  decode 0x02010000#32 = .error .reservedUpdate ∧
  response .ok 16 = 0x00000010#32 ∧
  response .ok 0 = 0x00000000#32 ∧
  response .ok 65536 = 0x00010000#32 ∧
  response .invalidPadding 0 = 0x04000000#32 ∧
  response .malformedStreamLength 0 = 0x06000000#32 ∧
  response .contextBusy 0 = 0x82000000#32

/-- R58: a descriptor carried over a byte channel, most significant byte first, is read back whole, and
its first byte is the opcode byte; four bytes are what a descriptor is made of. -/
def Obligations.DescriptorBytesReadBack : Prop :=
  ∀ d : Desc, descOfBytes (descToBytes d) = some d ∧ (descToBytes d).head? = some (opcOf d) ∧
    ∀ l : List Byte, descOfBytes l = some d → l = descToBytes d

/-- R90, R92: STATUS and OLEN are read back from the response word, and different statuses have
different codes. -/
def Obligations.ResponseFieldsReadBack : Prop :=
  (∀ (st : Status) (n : Nat), n < 2 ^ 24 →
    rspStatus (response st n) = statusCode st ∧ rspOlen (response st n) = n) ∧
  (∀ st st' : Status, statusCode st = statusCode st' → st = st') ∧
  ∀ st : Status, statusOfCode (statusCode st) = some st

/-! ### The step -/

/-- R12, R52: when the oldest descriptor on CMD decodes to a command, the step takes it off CMD and is
the meaning of that command, and the command is well formed. -/
def Obligations.StepRunsDecodedCommand : Prop :=
  ∀ (s : State) (d : Desc) (rest : List Desc) (i : Instr),
    s.resetReq = false → s.cmd = d :: rest → decode d = .ok i →
      i.wellFormed ∧ step s = exec i { s with cmd := rest }

/-- R212, R221: with no command and no reset the block holds its state. That the step then answers the
same state is the model's choice (log entry 10). -/
def Obligations.StepIdleHoldsState : Prop :=
  ∀ s : State, s.resetReq = false → s.cmd = [] → step s = .next s

/-- R221, R222: after a reset the phase is Idle and every port is empty, whatever the state was and
whatever command was waiting. The reset line and what stays over a reset are the model's choices (log
entries 12 and 24). -/
def Obligations.ResetEventEntersIdle : Prop :=
  ∀ s : State, ∃ t, step (hostReset s) = .next t ∧ t.phase = .idle ∧ t.cmd = [] ∧ t.din = [] ∧
    t.dout = [] ∧ t.rsp = [] ∧ t.coreReqs = [] ∧ t.resetReq = false ∧ t.core = s.core ∧
    t.initAnswers = s.initAnswers

/-- R36, R221: the reset state is Idle with empty ports. -/
def Obligations.ResetStateIsIdleAndEmpty : Prop :=
  State.reset.phase = .idle ∧ State.reset.cmd = [] ∧ State.reset.din = [] ∧ State.reset.dout = [] ∧
    State.reset.rsp = [] ∧ State.reset.coreReqs = []

/-- R53, R235: a command stops exactly when DIN holds fewer bytes than its descriptor announces; no
command is refused, and a reset ends the wait. That the stuck state is the fault `starvedPayload` is
the model's choice (log entry 11). -/
def Obligations.CommandStopsOnlyWhenStarved : Prop :=
  ∀ (i : Instr) (s : State),
    (s.din.length < payloadLen i → exec i s = .fault .starvedPayload ∧ ∃ t, step (hostReset s) = .next t) ∧
    (payloadLen i ≤ s.din.length → ∃ t, exec i s = .next t)

/-- R87: every command that completes, whatever its status, has taken exactly the payload its
descriptor announces, from the front of DIN; an illegal descriptor takes none. -/
def Obligations.PayloadTakenWhateverTheStatus : Prop :=
  (∀ (i : Instr) (s t : State), exec i s = .next t →
    t.din = s.din.drop (payloadLen i) ∧
      payloadLen i = match i with
        | .openCtx _ klen ivlen => klen + ivlen
        | .update len => len
        | .finish => 0
        | .abandon => 0) ∧
  ∀ (s t : State) (d : Desc) (rest : List Desc), s.resetReq = false → s.cmd = d :: rest →
    (∃ e, decode d = .error e) → step s = .next t → t.din = s.din

/-- R89, R90: every descriptor taken from CMD, legal or not, produces exactly one response, whose OLEN
is the number of bytes the command wrote to DOUT, at most 65536 (R91), and none when the status is not
OK. -/
def Obligations.OneResponsePerCommand : Prop :=
  ∀ (s t : State) (d : Desc) (rest : List Desc), s.Inv → s.resetReq = false → s.cmd = d :: rest →
    step s = .next t →
      ∃ (st : Status) (out : List Byte), t.rsp = s.rsp ++ [response st out.length] ∧
        t.dout = s.dout ++ out ∧ rspStatus (response st out.length) = statusCode st ∧
        rspOlen (response st out.length) = out.length ∧ out.length ≤ 65536 ∧ (st ≠ .ok → out = [])

/-- R29.2, R29.3, R24: every step keeps the bounds of `carry_len`. -/
def Obligations.StepKeepsCarryBounds : Prop := ∀ s t : State, s.Inv → step s = .next t → t.Inv

/-- R29: the bounds of `carry_len` hold at reset. -/
def Obligations.ResetHasCarryBounds : Prop := State.reset.Inv

/-- R111: from every phase, every command whose payload is there answers with a status of the table and
goes to the phase the table gives for it; where a command fails and the phase stays, the context is
untouched; an illegal descriptor is answered IllegalCommand and changes no register. -/
def Obligations.PhaseTransitionTable : Prop :=
  (∀ (i : Instr) (s : State), payloadLen i ≤ s.din.length →
    ∃ (t : State) (st : Status) (n : Nat), exec i s = .next t ∧ t.rsp = s.rsp ++ [response st n] ∧
      (st, t.phase) ∈ transitions i s ∧ (st ≠ .ok → t.phase = s.phase → SameRegisters s t)) ∧
  ∀ (s : State) (d : Desc) (rest : List Desc), s.resetReq = false → s.cmd = d :: rest →
    (∃ e, decode d = .error e) →
      ∃ t, step s = .next t ∧ t.rsp = s.rsp ++ [response .illegalCommand 0] ∧ SameRegisters s t

/-- R196: a command that fails writes no output byte and changes no register, but for the two failures
of decrypt FINISH, which end the context with KEY, CHAIN and CARRY zeroed. -/
def Obligations.FailedCommandsKeepTheContext : Prop :=
  ∀ (s t : State) (d : Desc) (rest : List Desc) (st : Status), s.resetReq = false → s.cmd = d :: rest →
    step s = .next t → t.rsp = s.rsp ++ [response st 0] → st ≠ .ok →
      t.dout = s.dout ∧
        if st = .invalidPadding ∨ st = .malformedStreamLength then t.phase = .finalized ∧ Released t
        else SameRegisters s t

/-- R28, R23: no step lets the host or the core see a void register: from two states that differ at
most in void register contents (outside Fresh all context registers, and CARRY from `carry_len` on),
the steps end alike, in states that again differ at most so. -/
def Obligations.VoidRegistersCannotBeObserved : Prop :=
  ∀ s t : State, SameButVoid s t → OutcomeSameButVoid (step s) (step t)

/-- R21, R27, R37: while a context stays Fresh no step writes KEY or `dir`. -/
def Obligations.KeyAndDirectionAreFixed : Prop :=
  ∀ s t : State, s.phase = .fresh → t.phase = .fresh → step s = .next t → t.key = s.key ∧ t.dir = s.dir

/-- R121: a command that ends a Fresh context zeroes KEY, CHAIN and CARRY, it is FINISH or ABANDON,
and these two always end it. -/
def Obligations.LeavingFreshReleases : Prop :=
  ∀ (i : Instr) (s t : State), s.phase = .fresh → exec i s = .next t →
    (t.phase ≠ .fresh ↔ i = .finish ∨ i = .abandon) ∧ (t.phase ≠ .fresh → Released t)

/-- R237: OPEN and FINISH make at most one core request, UPDATE at most floor((carry_len + LEN)/16),
ABANDON none. -/
def Obligations.CoreRequestsAreBounded : Prop :=
  ∀ (i : Instr) (s t : State), s.Inv → exec i s = .next t →
    ∃ reqs, t.coreReqs = s.coreReqs ++ reqs ∧ reqs.length ≤ maxCoreRequests i s

/-! ### OPEN -/

/-- R117: OPEN with a 32-byte key, a 16-byte IV and a core that initialises, from Idle or Finalized: it
loads KEY, registers the IV as chaining value, sets `dir`, empties CARRY, becomes Fresh and answers OK
with no output; any bytes do. -/
def Obligations.OpenLoadsContext : Prop :=
  ∀ (dir : Dir) (kbytes ivbytes rest : List Byte) (s : State), s.phase ≠ .fresh → kbytes.length = 32 →
    ivbytes.length = 16 → s.din = kbytes ++ ivbytes ++ rest → initAnswer s = .ok →
      ∃ t, exec (.openCtx dir 32 16) s = .next t ∧ t.phase = .fresh ∧ t.dir = dir ∧
        t.key.toList = kbytes ∧ t.chain.toList = ivbytes ∧ t.carryLen = 0#5 ∧ t.din = rest ∧
        t.dout = s.dout ∧ t.rsp = s.rsp ++ [0x00000000#32] ∧ t.coreReqs = s.coreReqs ++ [.init]

/-- R201: OPEN on a Fresh context answers ContextBusy, whatever its operands; its payload is taken and
discarded, and the open context is untouched. -/
def Obligations.OpenOnFreshIsBusy : Prop :=
  ∀ (dir : Dir) (klen ivlen : Nat) (s : State), s.phase = .fresh → klen + ivlen ≤ s.din.length →
    exec (.openCtx dir klen ivlen) s =
      .next { s with din := s.din.drop (klen + ivlen), rsp := s.rsp ++ [0x82000000#32] }

/-- R114, R192: OPEN with a key length other than 32 answers InvalidKeyLength and changes no register. -/
def Obligations.OpenRejectsKeyLength : Prop :=
  ∀ (dir : Dir) (klen ivlen : Nat) (s : State), s.phase ≠ .fresh → klen ≠ 32 →
    klen + ivlen ≤ s.din.length →
      exec (.openCtx dir klen ivlen) s =
        .next { s with din := s.din.drop (klen + ivlen), rsp := s.rsp ++ [0x01000000#32] }

/-- R115: with a right key length and a wrong IV length OPEN answers InvalidIVLength and changes no
register; with both wrong it answers InvalidKeyLength. -/
def Obligations.OpenRejectsIvLength : Prop :=
  ∀ (dir : Dir) (klen ivlen : Nat) (s : State), s.phase ≠ .fresh → ivlen ≠ 16 →
    klen + ivlen ≤ s.din.length →
      exec (.openCtx dir klen ivlen) s =
        .next { s with
          din := s.din.drop (klen + ivlen)
          rsp := s.rsp ++ [if klen = 32 then 0x02000000#32 else 0x01000000#32] }

/-- R116, R195: where both lengths are right the core is asked once; whichever of the two answers it
gives is followed, and a failure answers CipherInitFailure, changes no register and is not remembered.
That the next answer stands in State is the model's choice (log entry 4). -/
def Obligations.OpenFollowsTheInitAnswer : Prop :=
  ∀ (dir : Dir) (s : State) (a : InitAnswer) (later : List InitAnswer), s.phase ≠ .fresh →
    48 ≤ s.din.length → s.initAnswers = a :: later →
      ∃ t, exec (.openCtx dir 32 16) s = .next t ∧ t.initAnswers = later ∧
        t.coreReqs = s.coreReqs ++ [.init] ∧ t.dout = s.dout ∧
        match a with
        | .ok => t.phase = .fresh ∧ t.rsp = s.rsp ++ [0x00000000#32]
        | .fail => SameRegisters s t ∧ t.rsp = s.rsp ++ [0x03000000#32]

/-- R118, R119, R202: OPEN answers the first check that fails, in the fixed order, always with OLEN 0;
it never writes DOUT, and it makes no core request but the one init request, asked only when the three
earlier checks pass. -/
def Obligations.OpenChecksInOrder : Prop :=
  ∀ (dir : Dir) (klen ivlen : Nat) (s : State), klen + ivlen ≤ s.din.length →
    ∃ t, exec (.openCtx dir klen ivlen) s = .next t ∧
      t.rsp = s.rsp ++ [response (openStatus klen ivlen s) 0] ∧ t.dout = s.dout ∧
      t.coreReqs = s.coreReqs ++ (if s.phase ≠ .fresh ∧ klen = 32 ∧ ivlen = 16 then [.init] else []) ∧
      (openStatus klen ivlen s ≠ .ok → SameRegisters s t)

/-- R35: OPEN leaves CMD, DOUT, the attached core and the reset line as they are, and when it fails all
six registers too; when it succeeds no byte of CARRY is valid, and of the void ones nothing is said
(R23). -/
def Obligations.OpenFrame : Prop :=
  ∀ (dir : Dir) (klen ivlen : Nat) (s t : State), exec (.openCtx dir klen ivlen) s = .next t →
    t.cmd = s.cmd ∧ t.dout = s.dout ∧ t.core = s.core ∧ t.resetReq = s.resetReq ∧
      (openStatus klen ivlen s ≠ .ok → SameRegisters s t) ∧
      (openStatus klen ivlen s = .ok → carryBytes t = [])

/-! ### ABANDON -/

/-- R120: ABANDON is admitted in every phase and always answers OK with no output and no core request.
A Fresh context is released; from Idle it is a no-op, of whose void registers nothing is said (R28). -/
def Obligations.AbandonAlwaysEndsIdle : Prop :=
  ∀ s : State, ∃ t, exec .abandon s = .next t ∧ t.phase = .idle ∧ t.rsp = s.rsp ++ [0x00000000#32] ∧
    t.dout = s.dout ∧ t.din = s.din ∧ t.coreReqs = s.coreReqs ∧ (s.phase = .fresh → Released t) ∧
    (s.phase = .idle → SameButVoid { s with rsp := s.rsp ++ [0x00000000#32] } t)

/-- R35: ABANDON leaves CMD, DIN, DOUT, the core's port and answers, and the reset line as they are.
Outside Fresh it does nothing but answer OK and set `phase`; of the registers that are void then nothing
is said (R28). -/
def Obligations.AbandonFrame : Prop :=
  ∀ s t : State, exec .abandon s = .next t →
    t.cmd = s.cmd ∧ t.din = s.din ∧ t.dout = s.dout ∧ t.coreReqs = s.coreReqs ∧ t.core = s.core ∧
      t.initAnswers = s.initAnswers ∧ t.resetReq = s.resetReq ∧
      (s.phase ≠ .fresh →
        SameButVoid { s with phase := .idle, rsp := s.rsp ++ [response .ok 0] } t)

/-! ### UPDATE -/

/-- R135: encrypt UPDATE in closed form. With S the carried bytes and the chunk: floor(n/16) blocks
`S[16k .. 16k+15]` are encrypted in order, chained as R138 says, that many `CoreEnc` requests are made,
`carry_len` becomes n mod 16 and CARRY keeps the rest of S. The combination in
`cbcEncrypt` is exclusive OR, which is not in the spec's source (R138's own note; log entry 15). -/
def Obligations.UpdateEncryptClosedForm : Prop :=
  ∀ (s : State) (chunk rest : List Byte), s.phase = .fresh → s.dir = .encrypt → s.carryLen.toNat ≤ 15 →
    s.din = chunk ++ rest →
      let bytes := carryBytes s ++ chunk
      let m := (s.carryLen.toNat + chunk.length) / 16
      let blocks := cbcEncrypt s.core s.key s.chain (blocksOf m bytes)
      ∃ t reqs, exec (.update chunk.length) s = .next t ∧ t.dout = s.dout ++ bytesOfBlocks blocks ∧
        t.rsp = s.rsp ++ [response .ok (16 * m)] ∧ (bytesOfBlocks blocks).length = 16 * m ∧
        t.carryLen.toNat = (s.carryLen.toNat + chunk.length) % 16 ∧ carryBytes t = bytes.drop (16 * m) ∧
        t.chain = lastBlock s.chain blocks ∧ t.coreReqs = s.coreReqs ++ reqs ∧ reqs.length = m ∧
        (∀ r ∈ reqs, ∃ x, r = .enc s.key x) ∧ t.din = rest

/-- R136, R137: decrypt UPDATE in closed form. With S the carried bytes and the chunk, n in number:
floor((n-1)/16) blocks are decrypted (none when n = 0), that many `CoreDec` requests are made,
`carry_len` becomes ((n-1) mod 16) + 1, CARRY keeps the rest of S, and CHAIN is the last ciphertext
block consumed. The combination in `cbcDecrypt` is exclusive OR (R138's own note; log entry 15). -/
def Obligations.UpdateDecryptClosedForm : Prop :=
  ∀ (s : State) (chunk rest : List Byte), s.phase = .fresh → s.dir = .decrypt → s.carryLen.toNat ≤ 16 →
    s.din = chunk ++ rest →
      let bytes := carryBytes s ++ chunk
      let n := s.carryLen.toNat + chunk.length
      let m := (n - 1) / 16
      let blocks := cbcDecrypt s.core s.key s.chain (blocksOf m bytes)
      ∃ t reqs, exec (.update chunk.length) s = .next t ∧ t.dout = s.dout ++ bytesOfBlocks blocks ∧
        t.rsp = s.rsp ++ [response .ok (16 * m)] ∧ (bytesOfBlocks blocks).length = 16 * m ∧
        t.carryLen.toNat = (if n = 0 then 0 else (n - 1) % 16 + 1) ∧ carryBytes t = bytes.drop (16 * m) ∧
        t.chain = lastBlock s.chain (blocksOf m bytes) ∧ t.coreReqs = s.coreReqs ++ reqs ∧
        reqs.length = m ∧ (∀ r ∈ reqs, ∃ x, r = .dec s.key x) ∧ t.din = rest

/-- R132: UPDATE of no bytes. On Fresh it answers OK and changes nothing at all, in both directions;
on Idle and Finalized it fails like any other UPDATE. -/
def Obligations.ZeroLengthUpdateChangesNothing : Prop :=
  ∀ s : State, exec (.update 0) s =
    .next { s with
      rsp := s.rsp ++ [match s.phase with
        | .fresh => 0x00000000#32
        | .idle => 0x81000000#32
        | .finalized => 0x05000000#32] }

/-- R133: streaming transparency. Two sequences of UPDATE commands over the same bytes, however cut,
write the same output and end in the same state, its void bytes of CARRY apart (R23); only the
responses differ. -/
def Obligations.ChunkingInvariance : Prop :=
  ∀ (s : State) (lens lens' : List Nat), s.phase = .fresh → lens.sum = lens'.sum →
    lens.sum ≤ s.din.length →
      ∃ t t', runUpdates lens s = .next t ∧ runUpdates lens' s = .next t' ∧ t.phase = .fresh ∧
        SameButVoid { t with rsp := t'.rsp } t'

/-- R29: what holds between commands since OPEN. After an OPEN that succeeded and UPDATEs of T bytes in
all: for Encrypt `carry_len` is T mod 16 and floor(T/16) blocks have been emitted; for Decrypt it is
((T-1) mod 16) + 1, or 0 when T = 0, and floor((T-1)/16) blocks have been emitted; CHAIN is the IV
while no block has been processed and then the last ciphertext block. The combination in `cbcEncrypt`
and `cbcDecrypt` is exclusive OR (R138's own note; log entry 15). -/
def Obligations.InvariantsSinceOpen : Prop :=
  ∀ (dir : Dir) (s0 s t : State) (lens : List Nat), s0.phase ≠ .fresh →
    exec (.openCtx dir 32 16) s0 = .next s → s.phase = .fresh → runUpdates lens s = .next t →
      let total := lens.sum
      let bytes := s.din.take total
      s.chain.toList = (s0.din.drop 32).take 16 ∧ t.phase = .fresh ∧ t.dir = dir ∧
        match dir with
        | .encrypt =>
          let blocks := cbcEncrypt s.core s.key s.chain (blocksOf (total / 16) bytes)
          t.carryLen.toNat = total % 16 ∧ t.carryLen.toNat ≤ 15 ∧
            t.dout = s.dout ++ bytesOfBlocks blocks ∧ blocks.length = total / 16 ∧
            t.chain = lastBlock s.chain blocks
        | .decrypt =>
          let blocks := blocksOf ((total - 1) / 16) bytes
          t.carryLen.toNat = (if total = 0 then 0 else (total - 1) % 16 + 1) ∧ t.carryLen.toNat ≤ 16 ∧
            (t.carryLen.toNat = 0 ↔ total = 0) ∧
            t.dout = s.dout ++ bytesOfBlocks (cbcDecrypt s.core s.key s.chain blocks) ∧
            blocks.length = (total - 1) / 16 ∧ t.chain = lastBlock s.chain blocks

/-- R35: UPDATE leaves `phase`, `dir`, KEY, CMD, the attached core and its init answers, the reset line
and the draws as they are; outside Fresh it leaves every register and DOUT as they are. -/
def Obligations.UpdateFrame : Prop :=
  ∀ (len : Nat) (s t : State), exec (.update len) s = .next t →
    t.phase = s.phase ∧ t.dir = s.dir ∧ t.key = s.key ∧ t.cmd = s.cmd ∧ t.core = s.core ∧
      t.initAnswers = s.initAnswers ∧ t.resetReq = s.resetReq ∧ t.draws = s.draws ∧
      (s.phase ≠ .fresh → SameRegisters s t ∧ t.dout = s.dout ∧ t.coreReqs = s.coreReqs)

/-- R200: UPDATE and FINISH answer NoContext when the phase is Idle; the chunk is taken and discarded
and no register changes. -/
def Obligations.NoContextWhenIdle : Prop :=
  ∀ (s : State) (len : Nat), s.phase = .idle → len ≤ s.din.length →
    exec (.update len) s = .next { s with din := s.din.drop len, rsp := s.rsp ++ [0x81000000#32] } ∧
      exec .finish s = .next { s with rsp := s.rsp ++ [0x81000000#32] }

/-- R194: UPDATE and FINISH answer ContextFinalized when the phase is Finalized; the chunk is taken and
discarded and no register changes. OPEN and ABANDON do not answer it. -/
def Obligations.ContextFinalizedAfterFinish : Prop :=
  ∀ (s : State) (len : Nat), s.phase = .finalized → len ≤ s.din.length →
    exec (.update len) s = .next { s with din := s.din.drop len, rsp := s.rsp ++ [0x05000000#32] } ∧
      exec .finish s = .next { s with rsp := s.rsp ++ [0x05000000#32] } ∧
      ∀ (i : Instr) (t : State), (i = .abandon ∨ ∃ dir klen ivlen, i = .openCtx dir klen ivlen) →
        exec i s = .next t → t.rsp ≠ s.rsp ++ [0x05000000#32]

/-! ### Block chaining -/

/-- R139: with a core that has CoreInverse, decrypting the block an encryption has just produced, from
the same key and chaining value, gives the plaintext block back and leaves the same chaining value.
It rests on the combination being exclusive OR (R138's own note; log entry 15). -/
def Obligations.DecryptBlockUndoesEncryptBlock : Prop :=
  ∀ (p : Block) (s u : State), CoreInverse s.core → u.core = s.core → u.key = s.key → u.chain = s.chain →
    (cbcDecBlock (cbcEncBlock p s).1 u).1 = p ∧
      (cbcDecBlock (cbcEncBlock p s).1 u).2.chain = (cbcEncBlock p s).2.chain

/-- R140: plaintext block j depends only on ciphertext blocks j-1 and j, or the IV and block 0; and the
first j ciphertext blocks do not depend on later plaintext. The combination is exclusive OR (R138's own
note; log entry 15). -/
def Obligations.BlockDependencies : Prop :=
  (∀ (core : AttachedCore) (key : Key) (iv : Block) (cs : List Block) (j : Nat) (c : Block),
    cs[j]? = some c →
      (cbcDecrypt core key iv cs)[j]? =
        some (xorBlock (coreDec core key c) (if j = 0 then iv else cs.getD (j - 1) iv))) ∧
  ∀ (core : AttachedCore) (key : Key) (iv : Block) (ps qs : List Block),
    (cbcEncrypt core key iv (ps ++ qs)).take ps.length = cbcEncrypt core key iv ps

/-- 95_test_vectors.md section 2: both test cores have CoreInverse. -/
def Obligations.TestCoresInvert : Prop := CoreInverse .identity ∧ CoreInverse .rotAdd

/-! ### FINISH -/

/-- R153: `Pad` keeps the remainder and appends N bytes of value N, N = 16 - len(R), 1 to 16. -/
def Obligations.PadAppendsLengthBytes : Prop :=
  ∀ r : List Byte, r.length ≤ 15 →
    (pad r).toList = r ++ List.replicate (16 - r.length) (BitVec.ofNat 8 (16 - r.length))

/-- R156: `Unpad` accepts exactly the blocks that end in N bytes of value N for an N of 1 to 16, and
returns the bytes before them. -/
def Obligations.UnpadAcceptsExactlyValidPadding : Prop :=
  ∀ (x : Block) (v : List Byte), unpad x = some v ↔
    ∃ n, 1 ≤ n ∧ n ≤ 16 ∧ v.length = 16 - n ∧ x.toList = v ++ List.replicate n (BitVec.ofNat 8 n)

/-- R153, R156: `Unpad` undoes `Pad`. -/
def Obligations.UnpadUndoesPad : Prop := ∀ r : List Byte, r.length ≤ 15 → unpad (pad r) = some r

/-- R161: how many 16-byte values `Unpad` accepts. -/
def Obligations.AcceptedBlocksCount : Prop :=
  Nat.card { x : Block // (unpad x).isSome = true } = ∑ n ∈ Finset.Icc 1 16, 256 ^ (16 - n)

/-- R152: encrypt FINISH pads what is in CARRY to one block, encrypts it, emits exactly 16 bytes with one
`CoreEnc` request, and cannot fail; the context ends (R157). The block encrypted is the padded one
combined with CHAIN by exclusive OR (R138's own note; log entry 15). -/
def Obligations.FinishEncryptEmitsPaddedBlock : Prop :=
  ∀ s : State, s.phase = .fresh → s.dir = .encrypt → s.carryLen.toNat ≤ 15 →
    let n := 16 - s.carryLen.toNat
    let x := xorBlock (bytesOf 16 (carryBytes s ++ List.replicate n (BitVec.ofNat 8 n))) s.chain
    ∃ t, exec .finish s = .next t ∧ t.phase = .finalized ∧ Released t ∧
      t.dout = s.dout ++ (coreEnc s.core s.key x).toList ∧ t.rsp = s.rsp ++ [0x00000010#32] ∧
      t.coreReqs = s.coreReqs ++ [.enc s.key x]

/-- R155, R157: decrypt FINISH. Without a full CARRY it answers MalformedStreamLength and asks the core
nothing; else it decrypts the withheld block with one `CoreDec` request and answers InvalidPadding with
no output, or OK with the bytes before the padding. The context ends in all three cases. The core's
answer is combined with CHAIN by exclusive OR (R138's own note; log entry 15). -/
def Obligations.FinishDecryptOutcomes : Prop :=
  ∀ s : State, s.phase = .fresh → s.dir = .decrypt →
    let x := xorBlock (coreDec s.core s.key s.carry) s.chain
    ∃ t, exec .finish s = .next t ∧ t.phase = .finalized ∧ Released t ∧
      if s.carryLen.toNat ≠ 16 then
        t.rsp = s.rsp ++ [0x06000000#32] ∧ t.dout = s.dout ∧ t.coreReqs = s.coreReqs
      else
        t.coreReqs = s.coreReqs ++ [.dec s.key s.carry] ∧
          match unpad x with
          | none => t.rsp = s.rsp ++ [0x04000000#32] ∧ t.dout = s.dout
          | some v => t.rsp = s.rsp ++ [response .ok v.length] ∧ t.dout = s.dout ++ v ∧ v.length ≤ 15

/-- R158: decrypt FINISH answers MalformedStreamLength exactly when the ciphertext bytes received since
OPEN are not a positive multiple of 16 in number, and then makes no core request and outputs nothing. -/
def Obligations.MalformedLengthVerdict : Prop :=
  ∀ (s0 s t : State) (lens : List Nat), s0.phase ≠ .fresh →
    exec (.openCtx .decrypt 32 16) s0 = .next s → s.phase = .fresh → runUpdates lens s = .next t →
      ∃ u, exec .finish t = .next u ∧
        (u.rsp = t.rsp ++ [0x06000000#32] ↔ ¬ (0 < lens.sum ∧ lens.sum % 16 = 0)) ∧
        (¬ (0 < lens.sum ∧ lens.sum % 16 = 0) → u.coreReqs = t.coreReqs ∧ u.dout = t.dout)

/-- R35: FINISH leaves CMD, DIN, the attached core and its init answers, and the reset line as they
are, and outside Fresh every register, DOUT and the core's port too. -/
def Obligations.FinishFrame : Prop :=
  ∀ s t : State, exec .finish s = .next t →
    t.cmd = s.cmd ∧ t.din = s.din ∧ t.core = s.core ∧ t.initAnswers = s.initAnswers ∧
      t.resetReq = s.resetReq ∧
      (s.phase ≠ .fresh → SameRegisters s t ∧ t.dout = s.dout ∧ t.coreReqs = s.coreReqs)

/-! ### Whole streams and the host -/

/-- R154, R171: ENCRYPT_STREAM of T bytes in any split, from a block with no open context whose core
initialises, completes in Finalized with a stream of the IV and 16*(floor(T/16)+1) bytes of ciphertext,
whose length is valid (R61, R174), and leaves nothing on the ports. -/
def Obligations.EncryptionOutputLength : Prop :=
  ∀ (s : State) (key iv message : List Byte) (lens : List Nat), s.phase ≠ .fresh → HostSynced s →
    key.length = 32 → iv.length = 16 → initAnswer s = .ok →
      ∃ t z, encryptStream key iv message lens s = .next ⟨.complete, streamOf iv z, t⟩ ∧
        t.phase = .finalized ∧ HostSynced t ∧ z.length = 16 * (message.length / 16 + 1) ∧
        streamLengthOk (streamOf iv z) = true

/-- R159, R173: a DECRYPT_STREAM that completes, in any split: the ciphertext is a positive multiple of
16 bytes and the plaintext the host has is that length less the padding length N, 1 to 16. -/
def Obligations.DecryptionOutputLength : Prop :=
  ∀ (s t : State) (key stream out : List Byte) (knows : Bool) (lens : List Nat), s.phase ≠ .fresh →
    HostSynced s → key.length = 32 → initAnswer s = .ok →
    decryptStream key stream knows lens s = .next ⟨.complete, out, t⟩ →
      ∃ n, 1 ≤ n ∧ n ≤ 16 ∧ 16 + (out.length + n) = stream.length ∧ streamLengthOk stream = true

/-- R162: round trip. With a core that has CoreInverse, ENCRYPT_STREAM of a message in any split gives a
stream of the IV and 16*(floor(T/16)+1) bytes, and DECRYPT_STREAM of that stream in any split under the
same key, on the same or another block with the same core, gives the message again; both complete. That
the combining operation is exclusive OR is not in the spec's source (R138's own note; log entry 15). -/
def Obligations.EncryptThenDecryptRoundTrip : Prop :=
  ∀ (s : State) (key iv message : List Byte) (lens : List Nat), CoreInverse s.core → s.phase ≠ .fresh →
    HostSynced s → key.length = 32 → iv.length = 16 → initAnswer s = .ok →
      ∃ t z, encryptStream key iv message lens s = .next ⟨.complete, streamOf iv z, t⟩ ∧
        z.length = 16 * (message.length / 16 + 1) ∧
        ∀ (w : State) (knows : Bool) (lens' : List Nat), w.core = s.core → w.phase ≠ .fresh →
          HostSynced w → initAnswer w = .ok →
            ∃ u, decryptStream key (streamOf iv z) knows lens' w = .next ⟨.complete, message, u⟩

/-- R174: which stream lengths are valid. No host issues a command for a stream that holds no complete IV.
Any other invalid stream is rejected with MalformedStreamLength: before any command by a host that knows
the length, and by the block's FINISH, with no plaintext kept, for one that does not. That the first
rejection has a name of its own is the model's choice, since the source names no error (log entry 26). -/
def Obligations.InvalidStreamIsRejected : Prop :=
  ∀ (key stream : List Byte) (lens : List Nat) (s : State),
    (streamLengthOk stream = true ↔ 32 ≤ stream.length ∧ (stream.length - 16) % 16 = 0) ∧
    (stream.length < 16 → ∀ knows, decryptStream key stream knows lens s = .next ⟨.noIv, [], s⟩) ∧
    (16 ≤ stream.length → streamLengthOk stream = false →
      decryptStream key stream true lens s = .next ⟨.failed .malformedStreamLength, [], s⟩ ∧
      (s.phase ≠ .fresh → HostSynced s → key.length = 32 → initAnswer s = .ok →
        ∃ t, decryptStream key stream false lens s = .next ⟨.failed .malformedStreamLength, [], t⟩ ∧
          t.phase = .finalized))

/-- R175, R229: a session of the host, whatever its commands, either completes or ends at the first
status that is not OK; then the host has discarded all output and no context is left open, in whatever
phase the session began. The same holds of a session the host gives up by itself. When the host owes
the ABANDON is log entry 25. -/
def Obligations.FailedSessionLeavesNothing : Prop :=
  ∀ (cs : List HostCommand) (got : List Byte) (s : State), HostSynced s →
    (∀ c ∈ cs, c.instr.wellFormed ∧ c.payload.length = payloadLen c.instr) →
      (∃ r, runSession cs got s = .next r ∧ HostSynced r.state ∧
        (r.ending = .complete ∨
          (∃ st, st ≠ .ok ∧ r.ending = .failed st) ∧ r.output = [] ∧ r.state.phase ≠ .fresh)) ∧
      ∀ n, ∃ r, abandonAfter n cs s = .next r ∧ HostSynced r.state ∧
        (r.ending = .gaveUp ∨ ∃ st, st ≠ .ok ∧ r.ending = .failed st) ∧ r.output = [] ∧
        r.state.phase ≠ .fresh
end

