-- ==== Sys2Proof/Laws/State.lean ====
section
/-! SUPPORT. What each named operation does to each field of State: one lemma a field, true by rfl, so
that no later proof unfolds a record update. -/

namespace Sys2Proof.Machine

open Sys2Proof

/-! ### doutPut -/

@[simp] theorem doutPut_phase (bytes : List Byte) (s : State) : (doutPut bytes s).phase = s.phase := rfl
@[simp] theorem doutPut_dir (bytes : List Byte) (s : State) : (doutPut bytes s).dir = s.dir := rfl
@[simp] theorem doutPut_key (bytes : List Byte) (s : State) : (doutPut bytes s).key = s.key := rfl
@[simp] theorem doutPut_chain (bytes : List Byte) (s : State) : (doutPut bytes s).chain = s.chain := rfl
@[simp] theorem doutPut_carry (bytes : List Byte) (s : State) : (doutPut bytes s).carry = s.carry := rfl
@[simp] theorem doutPut_carryLen (bytes : List Byte) (s : State) : (doutPut bytes s).carryLen = s.carryLen := rfl
@[simp] theorem doutPut_cmd (bytes : List Byte) (s : State) : (doutPut bytes s).cmd = s.cmd := rfl
@[simp] theorem doutPut_din (bytes : List Byte) (s : State) : (doutPut bytes s).din = s.din := rfl
@[simp] theorem doutPut_dout (bytes : List Byte) (s : State) : (doutPut bytes s).dout = s.dout ++ bytes := rfl
@[simp] theorem doutPut_rsp (bytes : List Byte) (s : State) : (doutPut bytes s).rsp = s.rsp := rfl
@[simp] theorem doutPut_coreReqs (bytes : List Byte) (s : State) : (doutPut bytes s).coreReqs = s.coreReqs := rfl
@[simp] theorem doutPut_core (bytes : List Byte) (s : State) : (doutPut bytes s).core = s.core := rfl
@[simp] theorem doutPut_initAnswers (bytes : List Byte) (s : State) : (doutPut bytes s).initAnswers = s.initAnswers := rfl
@[simp] theorem doutPut_resetReq (bytes : List Byte) (s : State) : (doutPut bytes s).resetReq = s.resetReq := rfl
@[simp] theorem doutPut_draws (bytes : List Byte) (s : State) : (doutPut bytes s).draws = s.draws := rfl

/-! ### respond -/

@[simp] theorem respond_phase (st : Status) (n : Nat) (s : State) : (respond st n s).phase = s.phase := rfl
@[simp] theorem respond_dir (st : Status) (n : Nat) (s : State) : (respond st n s).dir = s.dir := rfl
@[simp] theorem respond_key (st : Status) (n : Nat) (s : State) : (respond st n s).key = s.key := rfl
@[simp] theorem respond_chain (st : Status) (n : Nat) (s : State) : (respond st n s).chain = s.chain := rfl
@[simp] theorem respond_carry (st : Status) (n : Nat) (s : State) : (respond st n s).carry = s.carry := rfl
@[simp] theorem respond_carryLen (st : Status) (n : Nat) (s : State) : (respond st n s).carryLen = s.carryLen := rfl
@[simp] theorem respond_cmd (st : Status) (n : Nat) (s : State) : (respond st n s).cmd = s.cmd := rfl
@[simp] theorem respond_din (st : Status) (n : Nat) (s : State) : (respond st n s).din = s.din := rfl
@[simp] theorem respond_dout (st : Status) (n : Nat) (s : State) : (respond st n s).dout = s.dout := rfl
@[simp] theorem respond_rsp (st : Status) (n : Nat) (s : State) : (respond st n s).rsp = s.rsp ++ [response st n] := rfl
@[simp] theorem respond_coreReqs (st : Status) (n : Nat) (s : State) : (respond st n s).coreReqs = s.coreReqs := rfl
@[simp] theorem respond_core (st : Status) (n : Nat) (s : State) : (respond st n s).core = s.core := rfl
@[simp] theorem respond_initAnswers (st : Status) (n : Nat) (s : State) : (respond st n s).initAnswers = s.initAnswers := rfl
@[simp] theorem respond_resetReq (st : Status) (n : Nat) (s : State) : (respond st n s).resetReq = s.resetReq := rfl
@[simp] theorem respond_draws (st : Status) (n : Nat) (s : State) : (respond st n s).draws = s.draws := rfl

/-! ### raise -/

@[simp] theorem raise_phase (e : Status) (s : State) : (raise e s).phase = s.phase := rfl
@[simp] theorem raise_dir (e : Status) (s : State) : (raise e s).dir = s.dir := rfl
@[simp] theorem raise_key (e : Status) (s : State) : (raise e s).key = s.key := rfl
@[simp] theorem raise_chain (e : Status) (s : State) : (raise e s).chain = s.chain := rfl
@[simp] theorem raise_carry (e : Status) (s : State) : (raise e s).carry = s.carry := rfl
@[simp] theorem raise_carryLen (e : Status) (s : State) : (raise e s).carryLen = s.carryLen := rfl
@[simp] theorem raise_cmd (e : Status) (s : State) : (raise e s).cmd = s.cmd := rfl
@[simp] theorem raise_din (e : Status) (s : State) : (raise e s).din = s.din := rfl
@[simp] theorem raise_dout (e : Status) (s : State) : (raise e s).dout = s.dout := rfl
@[simp] theorem raise_rsp (e : Status) (s : State) : (raise e s).rsp = s.rsp ++ [response e 0] := rfl
@[simp] theorem raise_coreReqs (e : Status) (s : State) : (raise e s).coreReqs = s.coreReqs := rfl
@[simp] theorem raise_core (e : Status) (s : State) : (raise e s).core = s.core := rfl
@[simp] theorem raise_initAnswers (e : Status) (s : State) : (raise e s).initAnswers = s.initAnswers := rfl
@[simp] theorem raise_resetReq (e : Status) (s : State) : (raise e s).resetReq = s.resetReq := rfl
@[simp] theorem raise_draws (e : Status) (s : State) : (raise e s).draws = s.draws := rfl

/-! ### complete -/

@[simp] theorem complete_phase (out : List Byte) (s : State) : (complete out s).phase = s.phase := rfl
@[simp] theorem complete_dir (out : List Byte) (s : State) : (complete out s).dir = s.dir := rfl
@[simp] theorem complete_key (out : List Byte) (s : State) : (complete out s).key = s.key := rfl
@[simp] theorem complete_chain (out : List Byte) (s : State) : (complete out s).chain = s.chain := rfl
@[simp] theorem complete_carry (out : List Byte) (s : State) : (complete out s).carry = s.carry := rfl
@[simp] theorem complete_carryLen (out : List Byte) (s : State) : (complete out s).carryLen = s.carryLen := rfl
@[simp] theorem complete_cmd (out : List Byte) (s : State) : (complete out s).cmd = s.cmd := rfl
@[simp] theorem complete_din (out : List Byte) (s : State) : (complete out s).din = s.din := rfl
@[simp] theorem complete_dout (out : List Byte) (s : State) : (complete out s).dout = s.dout ++ out := rfl
@[simp] theorem complete_rsp (out : List Byte) (s : State) : (complete out s).rsp = s.rsp ++ [response .ok out.length] := rfl
@[simp] theorem complete_coreReqs (out : List Byte) (s : State) : (complete out s).coreReqs = s.coreReqs := rfl
@[simp] theorem complete_core (out : List Byte) (s : State) : (complete out s).core = s.core := rfl
@[simp] theorem complete_initAnswers (out : List Byte) (s : State) : (complete out s).initAnswers = s.initAnswers := rfl
@[simp] theorem complete_resetReq (out : List Byte) (s : State) : (complete out s).resetReq = s.resetReq := rfl
@[simp] theorem complete_draws (out : List Byte) (s : State) : (complete out s).draws = s.draws := rfl

/-! ### sendCore -/

@[simp] theorem sendCore_phase (r : CoreRequest) (s : State) : (sendCore r s).phase = s.phase := rfl
@[simp] theorem sendCore_dir (r : CoreRequest) (s : State) : (sendCore r s).dir = s.dir := rfl
@[simp] theorem sendCore_key (r : CoreRequest) (s : State) : (sendCore r s).key = s.key := rfl
@[simp] theorem sendCore_chain (r : CoreRequest) (s : State) : (sendCore r s).chain = s.chain := rfl
@[simp] theorem sendCore_carry (r : CoreRequest) (s : State) : (sendCore r s).carry = s.carry := rfl
@[simp] theorem sendCore_carryLen (r : CoreRequest) (s : State) : (sendCore r s).carryLen = s.carryLen := rfl
@[simp] theorem sendCore_cmd (r : CoreRequest) (s : State) : (sendCore r s).cmd = s.cmd := rfl
@[simp] theorem sendCore_din (r : CoreRequest) (s : State) : (sendCore r s).din = s.din := rfl
@[simp] theorem sendCore_dout (r : CoreRequest) (s : State) : (sendCore r s).dout = s.dout := rfl
@[simp] theorem sendCore_rsp (r : CoreRequest) (s : State) : (sendCore r s).rsp = s.rsp := rfl
@[simp] theorem sendCore_coreReqs (r : CoreRequest) (s : State) : (sendCore r s).coreReqs = s.coreReqs ++ [r] := rfl
@[simp] theorem sendCore_core (r : CoreRequest) (s : State) : (sendCore r s).core = s.core := rfl
@[simp] theorem sendCore_initAnswers (r : CoreRequest) (s : State) : (sendCore r s).initAnswers = s.initAnswers := rfl
@[simp] theorem sendCore_resetReq (r : CoreRequest) (s : State) : (sendCore r s).resetReq = s.resetReq := rfl
@[simp] theorem sendCore_draws (r : CoreRequest) (s : State) : (sendCore r s).draws = s.draws := rfl

/-! ### carryPut -/

@[simp] theorem carryPut_phase (b : Byte) (s : State) : (carryPut b s).phase = s.phase := rfl
@[simp] theorem carryPut_dir (b : Byte) (s : State) : (carryPut b s).dir = s.dir := rfl
@[simp] theorem carryPut_key (b : Byte) (s : State) : (carryPut b s).key = s.key := rfl
@[simp] theorem carryPut_chain (b : Byte) (s : State) : (carryPut b s).chain = s.chain := rfl
@[simp] theorem carryPut_carry (b : Byte) (s : State) : (carryPut b s).carry = s.carry.setIfInBounds s.carryLen.toNat b := rfl
@[simp] theorem carryPut_carryLen (b : Byte) (s : State) : (carryPut b s).carryLen = s.carryLen + 1#5 := rfl
@[simp] theorem carryPut_cmd (b : Byte) (s : State) : (carryPut b s).cmd = s.cmd := rfl
@[simp] theorem carryPut_din (b : Byte) (s : State) : (carryPut b s).din = s.din := rfl
@[simp] theorem carryPut_dout (b : Byte) (s : State) : (carryPut b s).dout = s.dout := rfl
@[simp] theorem carryPut_rsp (b : Byte) (s : State) : (carryPut b s).rsp = s.rsp := rfl
@[simp] theorem carryPut_coreReqs (b : Byte) (s : State) : (carryPut b s).coreReqs = s.coreReqs := rfl
@[simp] theorem carryPut_core (b : Byte) (s : State) : (carryPut b s).core = s.core := rfl
@[simp] theorem carryPut_initAnswers (b : Byte) (s : State) : (carryPut b s).initAnswers = s.initAnswers := rfl
@[simp] theorem carryPut_resetReq (b : Byte) (s : State) : (carryPut b s).resetReq = s.resetReq := rfl
@[simp] theorem carryPut_draws (b : Byte) (s : State) : (carryPut b s).draws = s.draws := rfl

/-! ### carryClear -/

@[simp] theorem carryClear_phase (s : State) : (carryClear s).phase = s.phase := rfl
@[simp] theorem carryClear_dir (s : State) : (carryClear s).dir = s.dir := rfl
@[simp] theorem carryClear_key (s : State) : (carryClear s).key = s.key := rfl
@[simp] theorem carryClear_chain (s : State) : (carryClear s).chain = s.chain := rfl
@[simp] theorem carryClear_carry (s : State) : (carryClear s).carry = s.carry := rfl
@[simp] theorem carryClear_carryLen (s : State) : (carryClear s).carryLen = 0#5 := rfl
@[simp] theorem carryClear_cmd (s : State) : (carryClear s).cmd = s.cmd := rfl
@[simp] theorem carryClear_din (s : State) : (carryClear s).din = s.din := rfl
@[simp] theorem carryClear_dout (s : State) : (carryClear s).dout = s.dout := rfl
@[simp] theorem carryClear_rsp (s : State) : (carryClear s).rsp = s.rsp := rfl
@[simp] theorem carryClear_coreReqs (s : State) : (carryClear s).coreReqs = s.coreReqs := rfl
@[simp] theorem carryClear_core (s : State) : (carryClear s).core = s.core := rfl
@[simp] theorem carryClear_initAnswers (s : State) : (carryClear s).initAnswers = s.initAnswers := rfl
@[simp] theorem carryClear_resetReq (s : State) : (carryClear s).resetReq = s.resetReq := rfl
@[simp] theorem carryClear_draws (s : State) : (carryClear s).draws = s.draws := rfl

/-! ### cbcEncBlock -/

@[simp] theorem cbcEncBlock_fst (p : Block) (s : State) : (cbcEncBlock p s).1 = coreEnc s.core s.key (xorBlock p s.chain) := rfl
@[simp] theorem cbcEncBlock_phase (p : Block) (s : State) : (cbcEncBlock p s).2.phase = s.phase := rfl
@[simp] theorem cbcEncBlock_dir (p : Block) (s : State) : (cbcEncBlock p s).2.dir = s.dir := rfl
@[simp] theorem cbcEncBlock_key (p : Block) (s : State) : (cbcEncBlock p s).2.key = s.key := rfl
@[simp] theorem cbcEncBlock_chain (p : Block) (s : State) : (cbcEncBlock p s).2.chain = coreEnc s.core s.key (xorBlock p s.chain) := rfl
@[simp] theorem cbcEncBlock_carry (p : Block) (s : State) : (cbcEncBlock p s).2.carry = s.carry := rfl
@[simp] theorem cbcEncBlock_carryLen (p : Block) (s : State) : (cbcEncBlock p s).2.carryLen = s.carryLen := rfl
@[simp] theorem cbcEncBlock_cmd (p : Block) (s : State) : (cbcEncBlock p s).2.cmd = s.cmd := rfl
@[simp] theorem cbcEncBlock_din (p : Block) (s : State) : (cbcEncBlock p s).2.din = s.din := rfl
@[simp] theorem cbcEncBlock_dout (p : Block) (s : State) : (cbcEncBlock p s).2.dout = s.dout := rfl
@[simp] theorem cbcEncBlock_rsp (p : Block) (s : State) : (cbcEncBlock p s).2.rsp = s.rsp := rfl
@[simp] theorem cbcEncBlock_coreReqs (p : Block) (s : State) : (cbcEncBlock p s).2.coreReqs = s.coreReqs ++ [.enc s.key (xorBlock p s.chain)] := rfl
@[simp] theorem cbcEncBlock_core (p : Block) (s : State) : (cbcEncBlock p s).2.core = s.core := rfl
@[simp] theorem cbcEncBlock_initAnswers (p : Block) (s : State) : (cbcEncBlock p s).2.initAnswers = s.initAnswers := rfl
@[simp] theorem cbcEncBlock_resetReq (p : Block) (s : State) : (cbcEncBlock p s).2.resetReq = s.resetReq := rfl
@[simp] theorem cbcEncBlock_draws (p : Block) (s : State) : (cbcEncBlock p s).2.draws = s.draws := rfl

/-! ### cbcDecBlock -/

@[simp] theorem cbcDecBlock_fst (c : Block) (s : State) : (cbcDecBlock c s).1 = xorBlock (coreDec s.core s.key c) s.chain := rfl
@[simp] theorem cbcDecBlock_phase (c : Block) (s : State) : (cbcDecBlock c s).2.phase = s.phase := rfl
@[simp] theorem cbcDecBlock_dir (c : Block) (s : State) : (cbcDecBlock c s).2.dir = s.dir := rfl
@[simp] theorem cbcDecBlock_key (c : Block) (s : State) : (cbcDecBlock c s).2.key = s.key := rfl
@[simp] theorem cbcDecBlock_chain (c : Block) (s : State) : (cbcDecBlock c s).2.chain = c := rfl
@[simp] theorem cbcDecBlock_carry (c : Block) (s : State) : (cbcDecBlock c s).2.carry = s.carry := rfl
@[simp] theorem cbcDecBlock_carryLen (c : Block) (s : State) : (cbcDecBlock c s).2.carryLen = s.carryLen := rfl
@[simp] theorem cbcDecBlock_cmd (c : Block) (s : State) : (cbcDecBlock c s).2.cmd = s.cmd := rfl
@[simp] theorem cbcDecBlock_din (c : Block) (s : State) : (cbcDecBlock c s).2.din = s.din := rfl
@[simp] theorem cbcDecBlock_dout (c : Block) (s : State) : (cbcDecBlock c s).2.dout = s.dout := rfl
@[simp] theorem cbcDecBlock_rsp (c : Block) (s : State) : (cbcDecBlock c s).2.rsp = s.rsp := rfl
@[simp] theorem cbcDecBlock_coreReqs (c : Block) (s : State) : (cbcDecBlock c s).2.coreReqs = s.coreReqs ++ [.dec s.key c] := rfl
@[simp] theorem cbcDecBlock_core (c : Block) (s : State) : (cbcDecBlock c s).2.core = s.core := rfl
@[simp] theorem cbcDecBlock_initAnswers (c : Block) (s : State) : (cbcDecBlock c s).2.initAnswers = s.initAnswers := rfl
@[simp] theorem cbcDecBlock_resetReq (c : Block) (s : State) : (cbcDecBlock c s).2.resetReq = s.resetReq := rfl
@[simp] theorem cbcDecBlock_draws (c : Block) (s : State) : (cbcDecBlock c s).2.draws = s.draws := rfl

/-! ### release -/

@[simp] theorem release_phase (s : State) : (release s).phase = s.phase := rfl
@[simp] theorem release_dir (s : State) : (release s).dir = Config.voidDir s.draws := rfl
@[simp] theorem release_key (s : State) : (release s).key = Vector.replicate 32 0#8 := rfl
@[simp] theorem release_chain (s : State) : (release s).chain = Vector.replicate 16 0#8 := rfl
@[simp] theorem release_carry (s : State) : (release s).carry = Vector.replicate 16 0#8 := rfl
@[simp] theorem release_carryLen (s : State) : (release s).carryLen = Config.voidCarryLen s.draws := rfl
@[simp] theorem release_cmd (s : State) : (release s).cmd = s.cmd := rfl
@[simp] theorem release_din (s : State) : (release s).din = s.din := rfl
@[simp] theorem release_dout (s : State) : (release s).dout = s.dout := rfl
@[simp] theorem release_rsp (s : State) : (release s).rsp = s.rsp := rfl
@[simp] theorem release_coreReqs (s : State) : (release s).coreReqs = s.coreReqs := rfl
@[simp] theorem release_core (s : State) : (release s).core = s.core := rfl
@[simp] theorem release_initAnswers (s : State) : (release s).initAnswers = s.initAnswers := rfl
@[simp] theorem release_resetReq (s : State) : (release s).resetReq = s.resetReq := rfl
@[simp] theorem release_draws (s : State) : (release s).draws = s.draws + 1 := rfl

/-! ### finalize -/

@[simp] theorem finalize_phase (s : State) : (finalize s).phase = .finalized := rfl
@[simp] theorem finalize_dir (s : State) : (finalize s).dir = Config.voidDir s.draws := rfl
@[simp] theorem finalize_key (s : State) : (finalize s).key = Vector.replicate 32 0#8 := rfl
@[simp] theorem finalize_chain (s : State) : (finalize s).chain = Vector.replicate 16 0#8 := rfl
@[simp] theorem finalize_carry (s : State) : (finalize s).carry = Vector.replicate 16 0#8 := rfl
@[simp] theorem finalize_carryLen (s : State) : (finalize s).carryLen = Config.voidCarryLen s.draws := rfl
@[simp] theorem finalize_cmd (s : State) : (finalize s).cmd = s.cmd := rfl
@[simp] theorem finalize_din (s : State) : (finalize s).din = s.din := rfl
@[simp] theorem finalize_dout (s : State) : (finalize s).dout = s.dout := rfl
@[simp] theorem finalize_rsp (s : State) : (finalize s).rsp = s.rsp := rfl
@[simp] theorem finalize_coreReqs (s : State) : (finalize s).coreReqs = s.coreReqs := rfl
@[simp] theorem finalize_core (s : State) : (finalize s).core = s.core := rfl
@[simp] theorem finalize_initAnswers (s : State) : (finalize s).initAnswers = s.initAnswers := rfl
@[simp] theorem finalize_resetReq (s : State) : (finalize s).resetReq = s.resetReq := rfl
@[simp] theorem finalize_draws (s : State) : (finalize s).draws = s.draws + 1 := rfl

/-! ### illegalCommand -/

@[simp] theorem illegalCommand_phase (s : State) : (illegalCommand s).phase = s.phase := rfl
@[simp] theorem illegalCommand_dir (s : State) : (illegalCommand s).dir = s.dir := rfl
@[simp] theorem illegalCommand_key (s : State) : (illegalCommand s).key = s.key := rfl
@[simp] theorem illegalCommand_chain (s : State) : (illegalCommand s).chain = s.chain := rfl
@[simp] theorem illegalCommand_carry (s : State) : (illegalCommand s).carry = s.carry := rfl
@[simp] theorem illegalCommand_carryLen (s : State) : (illegalCommand s).carryLen = s.carryLen := rfl
@[simp] theorem illegalCommand_cmd (s : State) : (illegalCommand s).cmd = s.cmd := rfl
@[simp] theorem illegalCommand_din (s : State) : (illegalCommand s).din = s.din := rfl
@[simp] theorem illegalCommand_dout (s : State) : (illegalCommand s).dout = s.dout := rfl
@[simp] theorem illegalCommand_rsp (s : State) : (illegalCommand s).rsp = s.rsp ++ [response .illegalCommand 0] := rfl
@[simp] theorem illegalCommand_coreReqs (s : State) : (illegalCommand s).coreReqs = s.coreReqs := rfl
@[simp] theorem illegalCommand_core (s : State) : (illegalCommand s).core = s.core := rfl
@[simp] theorem illegalCommand_initAnswers (s : State) : (illegalCommand s).initAnswers = s.initAnswers := rfl
@[simp] theorem illegalCommand_resetReq (s : State) : (illegalCommand s).resetReq = s.resetReq := rfl
@[simp] theorem illegalCommand_draws (s : State) : (illegalCommand s).draws = s.draws := rfl

/-! ### hostWrite -/

@[simp] theorem hostWrite_phase (d : Desc) (payload : List Byte) (s : State) : (hostWrite d payload s).phase = s.phase := rfl
@[simp] theorem hostWrite_dir (d : Desc) (payload : List Byte) (s : State) : (hostWrite d payload s).dir = s.dir := rfl
@[simp] theorem hostWrite_key (d : Desc) (payload : List Byte) (s : State) : (hostWrite d payload s).key = s.key := rfl
@[simp] theorem hostWrite_chain (d : Desc) (payload : List Byte) (s : State) : (hostWrite d payload s).chain = s.chain := rfl
@[simp] theorem hostWrite_carry (d : Desc) (payload : List Byte) (s : State) : (hostWrite d payload s).carry = s.carry := rfl
@[simp] theorem hostWrite_carryLen (d : Desc) (payload : List Byte) (s : State) : (hostWrite d payload s).carryLen = s.carryLen := rfl
@[simp] theorem hostWrite_cmd (d : Desc) (payload : List Byte) (s : State) : (hostWrite d payload s).cmd = s.cmd ++ [d] := rfl
@[simp] theorem hostWrite_din (d : Desc) (payload : List Byte) (s : State) : (hostWrite d payload s).din = s.din ++ payload := rfl
@[simp] theorem hostWrite_dout (d : Desc) (payload : List Byte) (s : State) : (hostWrite d payload s).dout = s.dout := rfl
@[simp] theorem hostWrite_rsp (d : Desc) (payload : List Byte) (s : State) : (hostWrite d payload s).rsp = s.rsp := rfl
@[simp] theorem hostWrite_coreReqs (d : Desc) (payload : List Byte) (s : State) : (hostWrite d payload s).coreReqs = s.coreReqs := rfl
@[simp] theorem hostWrite_core (d : Desc) (payload : List Byte) (s : State) : (hostWrite d payload s).core = s.core := rfl
@[simp] theorem hostWrite_initAnswers (d : Desc) (payload : List Byte) (s : State) : (hostWrite d payload s).initAnswers = s.initAnswers := rfl
@[simp] theorem hostWrite_resetReq (d : Desc) (payload : List Byte) (s : State) : (hostWrite d payload s).resetReq = s.resetReq := rfl
@[simp] theorem hostWrite_draws (d : Desc) (payload : List Byte) (s : State) : (hostWrite d payload s).draws = s.draws := rfl

/-! ### hostReset -/

@[simp] theorem hostReset_phase (s : State) : (hostReset s).phase = s.phase := rfl
@[simp] theorem hostReset_dir (s : State) : (hostReset s).dir = s.dir := rfl
@[simp] theorem hostReset_key (s : State) : (hostReset s).key = s.key := rfl
@[simp] theorem hostReset_chain (s : State) : (hostReset s).chain = s.chain := rfl
@[simp] theorem hostReset_carry (s : State) : (hostReset s).carry = s.carry := rfl
@[simp] theorem hostReset_carryLen (s : State) : (hostReset s).carryLen = s.carryLen := rfl
@[simp] theorem hostReset_cmd (s : State) : (hostReset s).cmd = s.cmd := rfl
@[simp] theorem hostReset_din (s : State) : (hostReset s).din = s.din := rfl
@[simp] theorem hostReset_dout (s : State) : (hostReset s).dout = s.dout := rfl
@[simp] theorem hostReset_rsp (s : State) : (hostReset s).rsp = s.rsp := rfl
@[simp] theorem hostReset_coreReqs (s : State) : (hostReset s).coreReqs = s.coreReqs := rfl
@[simp] theorem hostReset_core (s : State) : (hostReset s).core = s.core := rfl
@[simp] theorem hostReset_initAnswers (s : State) : (hostReset s).initAnswers = s.initAnswers := rfl
@[simp] theorem hostReset_resetReq (s : State) : (hostReset s).resetReq = true := rfl
@[simp] theorem hostReset_draws (s : State) : (hostReset s).draws = s.draws := rfl

/-! ### openContext -/

@[simp] theorem openContext_phase (dir : Dir) (kb iv : List Byte) (s : State) : (openContext dir kb iv s).phase = .fresh := rfl
@[simp] theorem openContext_dir (dir : Dir) (kb iv : List Byte) (s : State) : (openContext dir kb iv s).dir = dir := rfl
@[simp] theorem openContext_key (dir : Dir) (kb iv : List Byte) (s : State) : (openContext dir kb iv s).key = bytesOf 32 kb := rfl
@[simp] theorem openContext_chain (dir : Dir) (kb iv : List Byte) (s : State) : (openContext dir kb iv s).chain = bytesOf 16 iv := rfl
@[simp] theorem openContext_carry (dir : Dir) (kb iv : List Byte) (s : State) : (openContext dir kb iv s).carry = s.carry := rfl
@[simp] theorem openContext_carryLen (dir : Dir) (kb iv : List Byte) (s : State) : (openContext dir kb iv s).carryLen = 0#5 := rfl
@[simp] theorem openContext_cmd (dir : Dir) (kb iv : List Byte) (s : State) : (openContext dir kb iv s).cmd = s.cmd := rfl
@[simp] theorem openContext_din (dir : Dir) (kb iv : List Byte) (s : State) : (openContext dir kb iv s).din = s.din := rfl
@[simp] theorem openContext_dout (dir : Dir) (kb iv : List Byte) (s : State) : (openContext dir kb iv s).dout = s.dout := rfl
@[simp] theorem openContext_rsp (dir : Dir) (kb iv : List Byte) (s : State) : (openContext dir kb iv s).rsp = s.rsp := rfl
@[simp] theorem openContext_coreReqs (dir : Dir) (kb iv : List Byte) (s : State) : (openContext dir kb iv s).coreReqs = s.coreReqs := rfl
@[simp] theorem openContext_core (dir : Dir) (kb iv : List Byte) (s : State) : (openContext dir kb iv s).core = s.core := rfl
@[simp] theorem openContext_initAnswers (dir : Dir) (kb iv : List Byte) (s : State) : (openContext dir kb iv s).initAnswers = s.initAnswers := rfl
@[simp] theorem openContext_resetReq (dir : Dir) (kb iv : List Byte) (s : State) : (openContext dir kb iv s).resetReq = s.resetReq := rfl
@[simp] theorem openContext_draws (dir : Dir) (kb iv : List Byte) (s : State) : (openContext dir kb iv s).draws = s.draws := rfl

/-! ### resetEvent -/

@[simp] theorem resetEvent_phase (s : State) : (resetEvent s).phase = State.reset.phase := rfl
@[simp] theorem resetEvent_dir (s : State) : (resetEvent s).dir = State.reset.dir := rfl
@[simp] theorem resetEvent_key (s : State) : (resetEvent s).key = State.reset.key := rfl
@[simp] theorem resetEvent_chain (s : State) : (resetEvent s).chain = State.reset.chain := rfl
@[simp] theorem resetEvent_carry (s : State) : (resetEvent s).carry = State.reset.carry := rfl
@[simp] theorem resetEvent_carryLen (s : State) : (resetEvent s).carryLen = State.reset.carryLen := rfl
@[simp] theorem resetEvent_cmd (s : State) : (resetEvent s).cmd = State.reset.cmd := rfl
@[simp] theorem resetEvent_din (s : State) : (resetEvent s).din = State.reset.din := rfl
@[simp] theorem resetEvent_dout (s : State) : (resetEvent s).dout = State.reset.dout := rfl
@[simp] theorem resetEvent_rsp (s : State) : (resetEvent s).rsp = State.reset.rsp := rfl
@[simp] theorem resetEvent_coreReqs (s : State) : (resetEvent s).coreReqs = State.reset.coreReqs := rfl
@[simp] theorem resetEvent_core (s : State) : (resetEvent s).core = s.core := rfl
@[simp] theorem resetEvent_initAnswers (s : State) : (resetEvent s).initAnswers = s.initAnswers := rfl
@[simp] theorem resetEvent_resetReq (s : State) : (resetEvent s).resetReq = State.reset.resetReq := rfl
@[simp] theorem resetEvent_draws (s : State) : (resetEvent s).draws = s.draws := rfl

/-! ### askInit -/

@[simp] theorem askInit_phase (s : State) : (askInit s).phase = s.phase := by
  unfold askInit; split <;> rfl
@[simp] theorem askInit_dir (s : State) : (askInit s).dir = s.dir := by
  unfold askInit; split <;> rfl
@[simp] theorem askInit_key (s : State) : (askInit s).key = s.key := by
  unfold askInit; split <;> rfl
@[simp] theorem askInit_chain (s : State) : (askInit s).chain = s.chain := by
  unfold askInit; split <;> rfl
@[simp] theorem askInit_carry (s : State) : (askInit s).carry = s.carry := by
  unfold askInit; split <;> rfl
@[simp] theorem askInit_carryLen (s : State) : (askInit s).carryLen = s.carryLen := by
  unfold askInit; split <;> rfl
@[simp] theorem askInit_cmd (s : State) : (askInit s).cmd = s.cmd := by
  unfold askInit; split <;> rfl
@[simp] theorem askInit_din (s : State) : (askInit s).din = s.din := by
  unfold askInit; split <;> rfl
@[simp] theorem askInit_dout (s : State) : (askInit s).dout = s.dout := by
  unfold askInit; split <;> rfl
@[simp] theorem askInit_rsp (s : State) : (askInit s).rsp = s.rsp := by
  unfold askInit; split <;> rfl
@[simp] theorem askInit_coreReqs (s : State) : (askInit s).coreReqs = s.coreReqs ++ [.init] := by
  unfold askInit; split <;> rfl
@[simp] theorem askInit_core (s : State) : (askInit s).core = s.core := by
  unfold askInit; split <;> rfl
@[simp] theorem askInit_resetReq (s : State) : (askInit s).resetReq = s.resetReq := by
  unfold askInit; split <;> rfl

@[simp] theorem askInit_initAnswers (s : State) : (askInit s).initAnswers = s.initAnswers.tail := by
  unfold askInit; split <;> simp_all

end Sys2Proof.Machine
end

