-- ==== Sys2Proof/Laws/Ops.lean ====
section
/-! SUPPORT. One lemma for each shared operation that says everything it can do: taking payload, the
chunker's two loops, the four meanings and the step. Proofs cite these and do not unfold. -/

namespace Sys2Proof.Machine

open Sys2Proof

/-! ### Bytes and blocks -/

@[simp] theorem toList_bytesOf_length (n : Nat) (l : List Byte) : (bytesOf n l).toList.length = n := by
  simp

theorem toList_bytesOf {n : Nat} {l : List Byte} (h : l.length = n) : (bytesOf n l).toList = l := by
  apply List.ext_getElem
  · simp [h]
  · intro i h1 h2
    simp [bytesOf, List.getD_eq_getElem?_getD, h2]

theorem bytesOf_toList {n : Nat} (v : Vector Byte n) : bytesOf n v.toList = v := by
  apply Vector.ext
  intro i h
  simp [bytesOf, List.getD_eq_getElem?_getD]

/-- Combining twice with the same block undoes the combination (R139). -/
@[simp] theorem xorBlock_xorBlock (a b : Block) : xorBlock (xorBlock a b) b = a := by
  apply Vector.ext
  intro i h
  simp [xorBlock]

theorem carryBytes_length (s : State) : (carryBytes s).length = min s.carryLen.toNat 16 := by
  simp [carryBytes]

/-! ### Taking payload -/

theorem dinTake_eq_some {n : Nat} {s t : State} {bytes : List Byte} :
    dinTake n s = some (bytes, t) ↔
      n ≤ s.din.length ∧ bytes = s.din.take n ∧ t = { s with din := s.din.drop n } := by
  unfold dinTake
  split
  · simp_all [eq_comm]
  · simp_all

theorem dinTake_eq_none {n : Nat} {s : State} : dinTake n s = none ↔ s.din.length < n := by
  unfold dinTake
  split <;> simp <;> omega

theorem dinTake_append {s : State} {bytes rest : List Byte} (h : s.din = bytes ++ rest) :
    dinTake bytes.length s = some (bytes, { s with din := rest }) := by
  rw [dinTake_eq_some]
  simp [h]

/-! ### The chunker -/

theorem updateEnc_append (xs ys : List Byte) (s : State) :
    updateEnc (xs ++ ys) s =
      ((updateEnc xs s).1 ++ (updateEnc ys (updateEnc xs s).2).1, (updateEnc ys (updateEnc xs s).2).2) := by
  induction xs generalizing s with
  | nil => rfl
  | cons b xs ih => simp [updateEnc, ih]

theorem updateDec_append (xs ys : List Byte) (s : State) :
    updateDec (xs ++ ys) s =
      ((updateDec xs s).1 ++ (updateDec ys (updateDec xs s).2).1, (updateDec ys (updateDec xs s).2).2) := by
  induction xs generalizing s with
  | nil => rfl
  | cons b xs ih => simp [updateDec, ih]

/-- What no chunk byte touches: everything but CHAIN, CARRY, `carry_len` and the CORE port. -/
abbrev ChunkFrame (s t : State) : Prop :=
  t = { s with chain := t.chain, carry := t.carry, carryLen := t.carryLen, coreReqs := t.coreReqs }

theorem encByte_frame (b : Byte) (s : State) : ChunkFrame s (encByte b s).2 := by
  simp only [encByte]
  split <;> rfl

theorem decByte_frame (b : Byte) (s : State) : ChunkFrame s (decByte b s).2 := by
  simp only [decByte]
  split <;> rfl

theorem ChunkFrame.trans {s t u : State} (h1 : ChunkFrame s t) (h2 : ChunkFrame t u) : ChunkFrame s u := by
  cases s; cases t; cases u
  simp_all [ChunkFrame]

theorem updateEnc_frame (chunk : List Byte) (s : State) : ChunkFrame s (updateEnc chunk s).2 := by
  induction chunk generalizing s with
  | nil => rfl
  | cons b chunk ih => exact (encByte_frame b s).trans (ih _)

theorem updateDec_frame (chunk : List Byte) (s : State) : ChunkFrame s (updateDec chunk s).2 := by
  induction chunk generalizing s with
  | nil => rfl
  | cons b chunk ih => exact (decByte_frame b s).trans (ih _)

/-! ### The meanings -/

theorem execOpen_eq_next {dir : Dir} {klen ivlen : Nat} {s t : State} :
    execOpen dir klen ivlen s = .next t ↔
      klen + ivlen ≤ s.din.length ∧
        t = openChecked dir klen ivlen (s.din.take klen) ((s.din.drop klen).take ivlen)
          { s with din := s.din.drop (klen + ivlen) } := by
  unfold execOpen dinTake
  by_cases h1 : klen ≤ s.din.length
  · by_cases h2 : ivlen ≤ s.din.length - klen
    · have : klen + ivlen ≤ s.din.length := by omega
      simp [h1, h2, this, eq_comm]
    · have : ¬ klen + ivlen ≤ s.din.length := by omega
      simp [h1, h2, this]
  · have : ¬ klen + ivlen ≤ s.din.length := by omega
    simp [h1, this]

/-- OPEN either fails, changing no register, or opens the context (R118). -/
theorem openChecked_cases (dir : Dir) (klen ivlen : Nat) (kb iv : List Byte) (s : State) :
    (s.phase = .fresh ∧ openChecked dir klen ivlen kb iv s = raise .contextBusy s) ∨
    (s.phase ≠ .fresh ∧ klen ≠ 32 ∧ openChecked dir klen ivlen kb iv s = raise .invalidKeyLength s) ∨
    (s.phase ≠ .fresh ∧ klen = 32 ∧ ivlen ≠ 16 ∧
      openChecked dir klen ivlen kb iv s = raise .invalidIvLength s) ∨
    (s.phase ≠ .fresh ∧ klen = 32 ∧ ivlen = 16 ∧ initAnswer s = .fail ∧
      openChecked dir klen ivlen kb iv s = raise .cipherInitFailure (askInit s)) ∨
    (s.phase ≠ .fresh ∧ klen = 32 ∧ ivlen = 16 ∧ initAnswer s = .ok ∧
      openChecked dir klen ivlen kb iv s = complete [] (openContext dir kb iv (askInit s))) := by
  unfold openChecked
  by_cases h1 : s.phase = .fresh
  · simp [h1]
  · by_cases h2 : klen = 32
    · by_cases h3 : ivlen = 16
      · cases h4 : initAnswer s <;> simp [h1, h2, h3]
      · simp [h1, h2, h3]
    · simp [h1, h2]

theorem execUpdate_eq_next {len : Nat} {s t : State} :
    execUpdate len s = .next t ↔
      len ≤ s.din.length ∧ t = updateChecked (s.din.take len) { s with din := s.din.drop len } := by
  unfold execUpdate dinTake
  by_cases h : len ≤ s.din.length <;> simp [h, eq_comm]

theorem execFinish_cases (s : State) :
    (s.phase = .idle ∧ execFinish s = .next (raise .noContext s)) ∨
    (s.phase = .finalized ∧ execFinish s = .next (raise .contextFinalized s)) ∨
    (s.phase = .fresh ∧ s.dir = .encrypt ∧ execFinish s = .next (finishEnc s)) ∨
    (s.phase = .fresh ∧ s.dir = .decrypt ∧ execFinish s = .next (finishDec s)) := by
  unfold execFinish
  cases s.phase <;> cases s.dir <;> simp

/-- Decrypt FINISH ends in one of three ways (R155, R157). -/
theorem finishDec_cases (s : State) :
    (s.carryLen ≠ 16#5 ∧ finishDec s = raise .malformedStreamLength (finalize s)) ∨
    (s.carryLen = 16#5 ∧ unpad (cbcDecBlock s.carry s).1 = none ∧
      finishDec s = raise .invalidPadding (finalize (cbcDecBlock s.carry s).2)) ∨
    (∃ v, s.carryLen = 16#5 ∧ unpad (cbcDecBlock s.carry s).1 = some v ∧
      finishDec s = complete v (finalize (cbcDecBlock s.carry s).2)) := by
  unfold finishDec
  by_cases h : s.carryLen = 16#5
  · cases h2 : unpad (cbcDecBlock s.carry s).1 <;> simp_all
  · simp [h]

/-- A completed command is one of the four, with its payload taken (R87). -/
theorem exec_cases {i : Instr} {s t : State} (h : exec i s = .next t) :
    (∃ dir klen ivlen, i = .openCtx dir klen ivlen ∧ klen + ivlen ≤ s.din.length ∧
      t = openChecked dir klen ivlen (s.din.take klen) ((s.din.drop klen).take ivlen)
        { s with din := s.din.drop (klen + ivlen) }) ∨
    (∃ len, i = .update len ∧ len ≤ s.din.length ∧
      t = updateChecked (s.din.take len) { s with din := s.din.drop len }) ∨
    (i = .finish ∧ execFinish s = .next t) ∨
    (i = .abandon ∧
      t = complete [] { (if s.phase = .fresh then release s else s) with phase := .idle }) := by
  cases i with
  | openCtx dir klen ivlen => exact .inl ⟨_, _, _, rfl, execOpen_eq_next.1 h⟩
  | update len => exact .inr (.inl ⟨_, rfl, execUpdate_eq_next.1 h⟩)
  | finish => exact .inr (.inr (.inl ⟨rfl, h⟩))
  | abandon => cases h; exact .inr (.inr (.inr ⟨rfl, rfl⟩))

/-! ### The step -/

/-- Everything a step can do. -/
theorem step_cases (s : State) :
    (s.resetReq = true ∧ step s = .next (resetEvent s)) ∨
    (s.resetReq = false ∧ s.cmd = [] ∧ step s = .next s) ∨
    (∃ d rest i, s.resetReq = false ∧ s.cmd = d :: rest ∧ decode d = .ok i ∧
      step s = exec i { s with cmd := rest }) ∨
    (∃ d rest e, s.resetReq = false ∧ s.cmd = d :: rest ∧ decode d = .error e ∧
      step s = .next (illegalCommand { s with cmd := rest })) := by
  unfold step takeDesc
  cases h1 : s.resetReq
  · cases h2 : s.cmd with
    | nil => simp
    | cons d rest => cases h3 : decode d <;> simp_all
  · simp

end Sys2Proof.Machine
end

