-- ==== Sys2Proof/Laws/Chunker.lean ====
section
/-! SUPPORT. The input chunker in closed form: one lemma for a byte and one for a chunk in each
direction, the block-wise reading of a byte sequence, and a sequence of UPDATEs as one chunk. -/

namespace Sys2Proof.Machine

open Sys2Proof

/-! ### CARRY -/

/-- The first bytes of a block after one more is written. -/
theorem take_setIfInBounds (v : Block) (n : Nat) (b : Byte) (h : n < 16) :
    (v.setIfInBounds n b).toList.take (n + 1) = v.toList.take n ++ [b] := by
  have hv : v.toList.length = 16 := by simp
  rw [Vector.toList_setIfInBounds, List.take_add_one, List.getElem?_set_self (by omega),
      List.take_set_of_le (by omega)]
  rfl

/-- One byte put in CARRY becomes its last valid byte (R134, R136). -/
theorem carryBytes_carryPut (b : Byte) (s : State) (h : s.carryLen.toNat ≤ 15) :
    carryBytes (carryPut b s) = carryBytes s ++ [b] ∧
        (carryPut b s).carryLen.toNat = s.carryLen.toNat + 1 := by
  have h1 : (s.carryLen + 1#5).toNat = s.carryLen.toNat + 1 := by
    simp [BitVec.toNat_add]; omega
  refine ⟨?_, h1⟩
  simp only [carryBytes, carryPut_carry, carryPut_carryLen, h1]
  exact take_setIfInBounds _ _ _ (by omega)

/-- A full CARRY is all of its bytes. -/
theorem carryBytes_full (s : State) (h : s.carryLen.toNat = 16) : carryBytes s = s.carry.toList := by
  simp [carryBytes, h]

/-- `carry_len = 16` as a number. -/
theorem eq16 (x : BitVec 5) : x = 16#5 ↔ x.toNat = 16 := by rw [← BitVec.toNat_inj]; rfl

/-- A full CARRY as a cipher block. -/
theorem bytesOf_carry (s : State) (h : s.carryLen.toNat = 16) : bytesOf 16 (carryBytes s) =
    s.carry := by
  rw [carryBytes_full s h, bytesOf_toList]

/-- `carry_len` counts the valid bytes. -/
theorem carryBytes_len_le (s : State) (h : s.carryLen.toNat ≤ 16) : (carryBytes s).length =
    s.carryLen.toNat := by
  rw [carryBytes_length]; omega

/-! ### Cipher blocks of a byte sequence -/

/-- A block is made of the first sixteen bytes. -/
theorem bytesOf_append (a b : List Byte) (h : a.length = 16) : bytesOf 16 (a ++ b) = bytesOf 16 a := by
  apply Vector.ext; intro i hi; simp [bytesOf, List.getD_eq_getElem?_getD, List.getElem?_append, h]

/-- The first block of a sequence, then the blocks of the rest. -/
theorem blocksOf_succ (m : Nat) (a b : List Byte) (h : a.length = 16) :
   blocksOf (m+1) (a ++ b) = bytesOf 16 a :: blocksOf m b := by
  simp only [blocksOf, List.range_succ_eq_map, List.map_cons, List.map_map]
  congr 1
  · simp [h]
  · apply List.map_congr_left
    intro k _
    simp only [Function.comp]
    congr 2
    rw [List.drop_append, List.drop_of_length_le (by omega)]
    simp [h]; omega

/-- How many blocks were asked for. -/
theorem blocksOf_length (m l) : (blocksOf m l).length = m := by simp [blocksOf]

/-- Sixteen bytes to a block. -/
theorem bytesOfBlocks_length (l : List Block) : (bytesOfBlocks l).length = 16 * l.length := by
  induction l with
  | nil => rfl
  | cons a l ih => simp [bytesOfBlocks] at *; rw [ih]; omega

/-- One ciphertext block for each plaintext block. -/
theorem cbcEncrypt_length (core key) (ch : Block) (l : List Block) :
    (cbcEncrypt core key ch l).length = l.length := by
  induction l generalizing ch with
  | nil => rfl
  | cons a l ih => simp [cbcEncrypt, ih]

/-- One plaintext block for each ciphertext block. -/
theorem cbcDecrypt_length (core key) (ch : Block) (l : List Block) :
    (cbcDecrypt core key ch l).length = l.length := by
  induction l generalizing ch with
  | nil => rfl
  | cons a l ih => simp [cbcDecrypt, ih]

/-- The last of one block and more. -/
theorem lastBlock_cons (ch x : Block) (L : List Block) : lastBlock ch (x :: L) = lastBlock x L := by
  unfold lastBlock; cases L <;> rfl

/-! ### One byte and one chunk -/

/-- One byte in direction Encrypt (R134). -/
theorem encByte_spec (b : Byte) (s : State) (h : s.carryLen.toNat ≤ 15) :
    (s.carryLen.toNat < 15 ∧ (encByte b s).1 = [] ∧ (encByte b s).2 = carryPut b s) ∨
    (s.carryLen.toNat = 15 ∧
      let x := xorBlock (bytesOf 16 (carryBytes s ++ [b])) s.chain
      let c := coreEnc s.core s.key x
      (encByte b s).1 = c.toList ∧ (encByte b s).2.chain = c ∧ (encByte b s).2.carryLen = 0#5 ∧
      (encByte b s).2.coreReqs = s.coreReqs ++ [.enc s.key x]) := by
  obtain ⟨h1, h2⟩ := carryBytes_carryPut b s h
  by_cases h3 : s.carryLen.toNat = 15
  · right
    have h4 : (carryPut b s).carryLen = 16#5 := by rw [eq16]; omega
    have h5 : bytesOf 16 (carryBytes s ++ [b]) = (carryPut b s).carry := by
      rw [← h1, bytesOf_carry _ (by omega)]
    refine ⟨h3, ?_⟩
    simp only [encByte, h4, if_true, h5]
    simp
  · left
    have h4 : (carryPut b s).carryLen ≠ 16#5 := by rw [Ne, eq16]; omega
    simp only [encByte, h4, if_false]
    simp; omega

/-- One byte in direction Decrypt (R136). -/
theorem decByte_spec (b : Byte) (s : State) (h : s.carryLen.toNat ≤ 16) :
    (s.carryLen.toNat < 16 ∧ (decByte b s).1 = [] ∧ (decByte b s).2 = carryPut b s) ∨
    (s.carryLen.toNat = 16 ∧
      (decByte b s).1 = (xorBlock (coreDec s.core s.key s.carry) s.chain).toList ∧
          (decByte b s).2.chain = s.carry ∧ (decByte b s).2.carryLen.toNat = 1 ∧
      carryBytes (decByte b s).2 = [b] ∧
      (decByte b s).2.coreReqs = s.coreReqs ++ [.dec s.key s.carry]) := by
  by_cases h3 : s.carryLen.toNat = 16
  · right
    have h4 : s.carryLen = 16#5 := by rw [eq16]; omega
    have := carryBytes_carryPut b (carryClear (cbcDecBlock s.carry s).2) (by simp)
    refine ⟨h3, ?_⟩
    simp only [decByte, h4, if_true]
    refine ⟨by simp, by simp, ?_, ?_, by simp⟩
    · rw [this.2]; simp
    · rw [this.1]; simp [carryBytes]
  · left
    have h4 : s.carryLen ≠ 16#5 := by rw [Ne, eq16]; omega
    simp only [decByte, h4, if_false]
    simp; omega

/-- A chunk in direction Encrypt, block by block. -/
theorem updateEnc_spec (chunk : List Byte) (s : State) (h : s.carryLen.toNat ≤ 15) :
   let bytes := carryBytes s ++ chunk
   let m := bytes.length / 16
   let C := cbcEncrypt s.core s.key s.chain (blocksOf m bytes)
   (updateEnc chunk s).1 = bytesOfBlocks C ∧ carryBytes (updateEnc chunk s).2 = bytes.drop (16*m) ∧
   (updateEnc chunk s).2.carryLen.toNat = bytes.length % 16 ∧
       (updateEnc chunk s).2.chain = lastBlock s.chain C ∧
   ∃ reqs, (updateEnc chunk s).2.coreReqs = s.coreReqs ++ reqs ∧ reqs.length = m ∧
       ∀ r ∈ reqs, ∃ x, r = .enc s.key x := by
  induction chunk generalizing s with
  | nil =>
    have hl := carryBytes_len_le s (by omega)
    have : (carryBytes s).length / 16 = 0 := by omega
    simp only [List.append_nil, updateEnc, this]
    exact ⟨by simp [blocksOf, cbcEncrypt, bytesOfBlocks], by simp, by omega, by simp [blocksOf,
        lastBlock, cbcEncrypt], [], by simp⟩
  | cons b chunk ih =>
    have hl := carryBytes_len_le s (by omega)
    rcases encByte_spec b s h with ⟨h1, h2, h3⟩ | ⟨h1, h2⟩
    · obtain ⟨c1, c2⟩ := carryBytes_carryPut b s h
      have := ih (carryPut b s) (by omega)
      rw [c1] at this
      simp only [updateEnc, h2, h3]
      simpa using this
    · simp only at h2
      obtain ⟨h2, h3, h4, h5⟩ := h2
      have hk := encByte_frame b s
      have hkey : (encByte b s).2.key = s.key ∧ (encByte b s).2.core = s.core := by rw [hk]; simp
      have := ih (encByte b s).2 (by rw [h4]; decide)
      have hcb : carryBytes (encByte b s).2 = [] := by simp [carryBytes, h4]
      simp only [hcb, hkey.1, hkey.2, h3, List.nil_append] at this
      obtain ⟨i1, i2, i3, i4, reqs, i5, i6, i7⟩ := this
      have hfull : (carryBytes s ++ [b]).length = 16 := by simp; omega
      have hb : carryBytes s ++ b :: chunk = (carryBytes s ++ [b]) ++ chunk := by simp
      have hm : (carryBytes s ++ b :: chunk).length / 16 = chunk.length / 16 + 1 := by
        rw [hb, List.length_append, hfull]
        omega
      simp only [hm]
      simp only [updateEnc, h2, i1, i2, i3, i4, i5, h5]
      rw [hb, blocksOf_succ _ _ _ hfull]
      refine ⟨?_, ?_, ?_, ?_, ?_⟩
      · simp [cbcEncrypt, bytesOfBlocks]
      · rw [List.drop_append (l₁ := carryBytes s ++ [b]),
          List.drop_of_length_le (l := carryBytes s ++ [b]) (by omega), hfull, List.nil_append]
        congr 1
      · rw [List.length_append, hfull]; omega
      · simp only [cbcEncrypt, lastBlock_cons]
      · exact ⟨_, by rw [List.append_assoc], by simp; omega, by
          intro r hr; simp at hr; rcases hr with rfl | hr
          · exact ⟨_, rfl⟩
          · exact i7 r hr⟩

/-- A chunk in direction Decrypt, block by block. -/
theorem updateDec_spec (chunk : List Byte) (s : State) (h : s.carryLen.toNat ≤ 16) :
   let bytes := carryBytes s ++ chunk
   let m := (bytes.length - 1) / 16
   let B := blocksOf m bytes
   (updateDec chunk s).1 = bytesOfBlocks (cbcDecrypt s.core s.key s.chain B) ∧
       carryBytes (updateDec chunk s).2 = bytes.drop (16*m) ∧
   (updateDec chunk s).2.carryLen.toNat = (if bytes.length = 0 then 0 else (bytes.length - 1)
       % 16 + 1) ∧ (updateDec chunk s).2.chain = lastBlock s.chain B ∧
   ∃ reqs, (updateDec chunk s).2.coreReqs = s.coreReqs ++ reqs ∧ reqs.length = m ∧
       ∀ r ∈ reqs, ∃ x, r = .dec s.key x := by
  induction chunk generalizing s with
  | nil =>
    have hl := carryBytes_len_le s (by omega)
    have : ((carryBytes s).length - 1) / 16 = 0 := by omega
    simp only [List.append_nil, updateDec, this]
    refine ⟨by simp [blocksOf, cbcDecrypt, bytesOfBlocks], by simp, ?_, by simp [blocksOf,
        lastBlock], [], by simp⟩
    split <;> omega
  | cons b chunk ih =>
    have hl := carryBytes_len_le s (by omega)
    rcases decByte_spec b s h with ⟨h1, h2, h3⟩ | ⟨h1, h2, h3, h4, h6, h5⟩
    · obtain ⟨c1, c2⟩ := carryBytes_carryPut b s (by omega)
      have := ih (carryPut b s) (by omega)
      rw [c1] at this
      simp only [updateDec, h2, h3]
      simpa using this
    · have hk := decByte_frame b s
      have hkey : (decByte b s).2.key = s.key ∧ (decByte b s).2.core = s.core := by rw [hk]; simp
      have := ih (decByte b s).2 (by omega)
      simp only [h6, hkey.1, hkey.2, h3] at this
      obtain ⟨i1, i2, i3, i4, reqs, i5, i6, i7⟩ := this
      have hfull : (carryBytes s).length = 16 := by omega
      have hm : ((carryBytes s ++ b :: chunk).length - 1) / 16 = (([b] ++ chunk).length - 1)
          / 16 + 1 := by simp [hfull]
      simp only [hm]
      simp only [updateDec, h2, i1, i2, i3, i4, i5, h5]
      rw [show b :: chunk = [b] ++ chunk from rfl, blocksOf_succ _ _ _ hfull, bytesOf_carry _ h1]
      refine ⟨?_, ?_, ?_, ?_, ?_⟩
      · simp [cbcDecrypt, bytesOfBlocks]
      · rw [List.drop_append (l₁ := carryBytes s),
          List.drop_of_length_le (l := carryBytes s) (by omega), hfull, List.nil_append]
        congr 1
      · simp [hfull]
      · rw [lastBlock_cons]
      · exact ⟨_, by rw [List.append_assoc], by simp [i6], by
          intro r hr; simp at hr; rcases hr with rfl | hr
          · exact ⟨_, rfl⟩
          · exact i7 r hr⟩

/-! ### The chunker of a direction -/

/-- The chunker `dir` selects (R131). -/
def chunker : Dir → List Byte → State → List Byte × State
  | .encrypt => updateEnc
  | .decrypt => updateDec

/-- What no chunk touches. -/
theorem chunker_frame (d) (l) (s : State) : ChunkFrame s (chunker d l s).2 := by
  cases d; exact updateEnc_frame l s; exact updateDec_frame l s

/-- Two chunks are one chunk (R133). -/
theorem chunker_append (d : Dir) (xs ys : List Byte) (s : State) :
    chunker d (xs ++ ys) s =
      ((chunker d xs s).1 ++ (chunker d ys (chunker d xs s).2).1,
        (chunker d ys (chunker d xs s).2).2) := by
  cases d
  · exact updateEnc_append xs ys s
  · exact updateDec_append xs ys s

/-- The same state with these bytes on DIN, on DOUT, and these responses on RSP. -/
abbrev withPorts (s : State) (din dout : List Byte) (rsp : List Desc) : State :=
  { s with din := din, dout := dout, rsp := rsp }

/-- A byte does not look at DIN, DOUT and RSP. -/
theorem encByte_ports (b : Byte) (s : State) (i o : List Byte) (r : List Desc) :
    encByte b (withPorts s i o r) = ((encByte b s).1, withPorts (encByte b s).2 i o r) := by
  have h : carryPut b (withPorts s i o r) = withPorts (carryPut b s) i o r := rfl
  simp only [encByte, h]
  split <;> rfl

/-- A byte does not look at DIN, DOUT and RSP. -/
theorem decByte_ports (b : Byte) (s : State) (i o : List Byte) (r : List Desc) :
    decByte b (withPorts s i o r) = ((decByte b s).1, withPorts (decByte b s).2 i o r) := by
  simp only [decByte]
  split <;> rfl

/-- A chunk does not look at DIN, DOUT and RSP. -/
theorem chunker_ports (d : Dir) (l : List Byte) (s : State) (i o : List Byte) (r : List Desc) :
    chunker d l (withPorts s i o r) = ((chunker d l s).1, withPorts (chunker d l s).2 i o r) := by
  induction l generalizing s with
  | nil => cases d <;> rfl
  | cons b l ih =>
    cases d
    · simp only [chunker] at ih ⊢
      simp only [updateEnc, encByte_ports, ih]
    · simp only [chunker] at ih ⊢
      simp only [updateDec, decByte_ports, ih]

/-- UPDATE on a Fresh context is its chunker (R131). -/
theorem updateChecked_fresh (c : List Byte) (s : State) (h : s.phase = .fresh) :
    updateChecked c s = complete (chunker s.dir c s).1 (chunker s.dir c s).2 := by
  simp only [updateChecked, h, updateFresh]
  cases hd : s.dir <;> simp [chunker]

/-- UPDATE on a Fresh context whose chunk is there. -/
theorem exec_update_fresh (s : State) (n : Nat) (h1 : s.phase = .fresh) (hn : n ≤ s.din.length) :
    exec (.update n) s =
      .next (withPorts (chunker s.dir (s.din.take n) s).2 (s.din.drop n)
        (s.dout ++ (chunker s.dir (s.din.take n) s).1)
        (s.rsp ++ [response .ok (chunker s.dir (s.din.take n) s).1.length])) := by
  refine execUpdate_eq_next.2 ⟨hn, ?_⟩
  rw [updateChecked_fresh _ { s with din := s.din.drop n } h1]
  have hp := chunker_ports s.dir (s.din.take n) s (s.din.drop n) s.dout s.rsp
  dsimp only [withPorts] at hp ⊢
  rw [hp]
  rfl

/-- A sequence of UPDATEs is one chunk: only the responses tell (R133). -/
theorem runUpdates_fresh (lens : List Nat) (s : State) (h1 : s.phase = .fresh)
    (hn : lens.sum ≤ s.din.length) :
    ∃ r, runUpdates lens s =
      .next (withPorts (chunker s.dir (s.din.take lens.sum) s).2 (s.din.drop lens.sum)
        (s.dout ++ (chunker s.dir (s.din.take lens.sum) s).1) r) := by
  induction lens generalizing s with
  | nil => exact ⟨s.rsp, by cases hd : s.dir <;> simp [runUpdates, chunker, updateEnc, updateDec]⟩
  | cons n lens ih =>
    simp only [List.sum_cons] at hn ⊢
    have hf := chunker_frame s.dir (s.din.take n) s
    have hd : (chunker s.dir (s.din.take n) s).2.dir = s.dir := by rw [hf]
    simp only [runUpdates, exec_update_fresh s n h1 (by omega)]
    obtain ⟨r, hr⟩ := ih (withPorts (chunker s.dir (s.din.take n) s).2 (s.din.drop n)
      (s.dout ++ (chunker s.dir (s.din.take n) s).1)
      (s.rsp ++ [response .ok (chunker s.dir (s.din.take n) s).1.length]))
      (by show State.phase _ = _; rw [hf]; exact h1) (by simp; omega)
    refine ⟨r, hr.trans ?_⟩
    have hs : s.din.take (n + lens.sum) = s.din.take n ++ (s.din.drop n).take lens.sum := List.take_add
    dsimp only
    rw [chunker_ports, hs, chunker_append, hd]
    simp [List.drop_drop]

/-- UPDATEs that all complete had their chunks on DIN. -/
theorem runUpdates_len (lens : List Nat) (s t : State) (h : runUpdates lens s = .next t) :
    lens.sum ≤ s.din.length := by
  induction lens generalizing s with
  | nil => simp
  | cons n lens ih =>
    simp only [runUpdates] at h
    split at h
    · rename_i u hu
      have hlen := ih u h
      obtain ⟨_, hb⟩ := execUpdate_eq_next.1 (show execUpdate n s = .next u from hu)
      have hd : u.din = s.din.drop n := by
        rw [hb]
        simp only [updateChecked]
        cases s.phase <;> simp [updateFresh]
        cases hd : s.dir <;> simp
        · rw [updateEnc_frame]
        · rw [updateDec_frame]
      rw [hd] at hlen
      simp at *
      omega
    · cases h
    · cases h

end Sys2Proof.Machine
end

