-- ==== Sys2Proof/Laws/Encoding.lean ====
section
/-! SUPPORT. Descriptors as numbers: every bit field is a quotient and a remainder, so that `omega`
decides what a proof about decoding comes down to. -/

namespace Sys2Proof

/-- Concatenated bit fields as a number. -/
theorem toNat_append_add {m n : Nat} (x : BitVec m) (y : BitVec n) :
    (x ++ y).toNat = x.toNat * 2 ^ n + y.toNat := by
  rw [BitVec.toNat_append, ← Nat.shiftLeft_add_eq_or_of_lt y.isLt, Nat.shiftLeft_eq]

/-- A bit field of a descriptor holds a value. -/
theorem extract_eq_iff (d : Desc) (a l : Nat) (c : BitVec l) :
    d.extractLsb' a l = c ↔ d.toNat / 2 ^ a % 2 ^ l = c.toNat := by
  rw [← BitVec.toNat_inj]; simp [BitVec.extractLsb'_toNat, Nat.shiftRight_eq_div_pow]

/-- A bit field of a descriptor as a number. -/
theorem extract_toNat (d : Desc) (a l : Nat) : (d.extractLsb' a l).toNat = d.toNat / 2 ^ a % 2 ^ l := by
  simp [BitVec.extractLsb'_toNat, Nat.shiftRight_eq_div_pow]

/-- The descriptor of OPEN as a number (R82). -/
theorem encode_openCtx_toNat (dir : Dir) (k v : Nat) : (encode (.openCtx dir k v)).toNat =
   2^24 + (bitOfDir dir).toNat * 2^16 + (k % 2^8) * 2^8 + v % 2^8 := by
  simp only [encode, toNat_append_add, BitVec.toNat_ofNat]; omega

/-- The descriptor of UPDATE as a number (R85). -/
theorem encode_update_toNat (n : Nat) : (encode (.update n)).toNat = 2 * 2^24 + n % 2^16 := by
  simp only [encode, toNat_append_add, BitVec.toNat_ofNat]; omega

/-- The DIR bit read as a direction (R83). -/
theorem dirOfBit_extract (d : Desc) : dirOfBit (d.extractLsb' 16 1) = if d.toNat / 2 ^ 16 % 2 =
    0 then .encrypt else .decrypt := by
  simp only [dirOfBit, extract_eq_iff]; rfl

/-- The decoder (R95) over the number a descriptor is. -/
theorem decode_nat (d : Desc) : decode d =
   if d.toNat / 2^24 = 1 then
     if d.toNat / 2^17 % 2^7 = 0 then .ok (.openCtx (if d.toNat / 2 ^ 16 % 2 =
         0 then .encrypt else .decrypt) (d.toNat / 2^8 % 2^8) (d.toNat % 2^8))
     else .error .reservedOpen
   else if d.toNat / 2^24 = 2 then
     if d.toNat / 2^16 % 2^8 = 0 then .ok (.update (d.toNat % 2^16)) else .error .reservedUpdate
   else if d.toNat / 2^24 = 3 then
     if d.toNat % 2^24 = 0 then .ok .finish else .error .reservedFinish
   else if d.toNat / 2^24 = 4 then
     if d.toNat % 2^24 = 0 then .ok .abandon else .error .reservedAbandon
   else .error (.undefinedOpcode (opcOf d)) := by
  have := d.isLt
  simp only [decode, opcOf, extract_eq_iff, dirOfBit_extract, extract_toNat, BitVec.toNat_ofNat,
      Nat.pow_zero, Nat.div_one]
  have h : d.toNat / 2^24 % 2^8 = d.toNat / 2^24 := by omega
  rw [h]

end Sys2Proof
end

