-- ==== Sys2Proof/Laws/HostProtocol.lean ====
section
/-! SUPPORT. What an exchange with the block can be when nothing is waiting on the ports, what a session
does with its first reply, and the host's splits: they are in order, complete, and any split is one. -/

namespace Sys2Proof.Machine

open Sys2Proof

/-! ### Replies -/

theorem rspStatus_response (st : Status) (n : Nat) : rspStatus (response st n) = statusCode st := by
  apply BitVec.eq_of_toNat_eq
  simp only [rspStatus, response, BitVec.extractLsb'_toNat, Nat.shiftRight_eq_div_pow, toNat_append_add]
  have h1 := (statusCode st).isLt
  have h2 := (BitVec.ofNat 24 n).isLt
  omega

theorem rspOlen_response (st : Status) {n : Nat} (h : n < 2 ^ 24) : rspOlen (response st n) = n := by
  simp only [rspOlen, response, BitVec.extractLsb'_toNat, Nat.shiftRight_eq_div_pow, toNat_append_add,
    BitVec.toNat_ofNat]
  omega

theorem statusOfCode_statusCode (st : Status) : statusOfCode (statusCode st) = some st := by
  cases st <;> decide

/-- The reply to the only command that has been answered. -/
theorem readReply_single {t : State} {st : Status} {out : List Byte} (hr : t.rsp = [response st out.length])
    (hd : t.dout = out) (hl : out.length < 2 ^ 24) :
    readReply t = (some (st, out), { t with rsp := [], dout := [] }) := by
  simp [readReply, hostTakeResponse, hr, hostTakeOutput, rspOlen_response st hl, hd, rspStatus_response,
    statusOfCode_statusCode]

/-- With nothing on the ports and no reset, the step on a written command is its meaning (R12, R52). -/
theorem transact_eq_exec {c : HostCommand} {s : State} (hs : HostSynced s)
    (hc : decode (encode c.instr) = .ok c.instr) :
    transact c s = exec c.instr { s with din := c.payload } := by
  obtain ⟨h1, h2, -, -, h5⟩ := hs
  simp [transact, step, takeDesc, hostWrite, h1, h2, h5, hc]

/-- With nothing on the ports, one exchange gives a command's own status and output. -/
theorem exchange_eq_next {c : HostCommand} {s t : State} {st : Status} {out : List Byte} (hs : HostSynced s)
    (hc : decode (encode c.instr) = .ok c.instr) (ht : exec c.instr { s with din := c.payload } = .next t)
    (hr : t.rsp = [response st out.length]) (hd : t.dout = out) (hl : out.length < 2 ^ 24) :
    exchange c s = .next (some (st, out), { t with rsp := [], dout := [] }) := by
  simp [exchange, transact_eq_exec hs hc, ht, readReply_single hr hd hl]

/-- A session goes on after a reply of OK. -/
theorem runSession_ok {c : HostCommand} {cs : List HostCommand} {got out : List Byte} {s t : State}
    (h : exchange c s = .next (some (.ok, out), t)) :
    runSession (c :: cs) got s = runSession cs (got ++ out) t := by
  simp [runSession, h]

/-- A session ends at the first reply that is not OK (R175). -/
theorem runSession_error {c : HostCommand} {cs : List HostCommand} {got out : List Byte} {s t : State}
    {st : Status} (h : exchange c s = .next (some (st, out), t)) (hst : st ≠ .ok) :
    runSession (c :: cs) got s = stopOnError st t := by
  simp [runSession, h, hst]

/-! ### Splits -/

theorem fullChunks_flatten (fuel : Nat) (bytes : List Byte) (h : bytes.length ≤ fuel) :
    (fullChunks fuel bytes).flatten = bytes := by
  induction fuel generalizing bytes with
  | zero => simp_all [fullChunks]
  | succ fuel ih =>
    unfold fullChunks
    split
    · simp_all
    · rw [List.flatten_cons, ih _ (by simp [maxChunk]; omega), List.take_append_drop]

theorem fullChunks_length_le (fuel : Nat) (bytes : List Byte) :
    ∀ c ∈ fullChunks fuel bytes, c.length ≤ maxChunk := by
  induction fuel generalizing bytes with
  | zero => simp [fullChunks]
  | succ fuel ih =>
    unfold fullChunks
    split
    · simp
    · exact List.forall_mem_cons.2 ⟨by simp, ih _⟩

/-- A split loses nothing and keeps the order. -/
theorem chunksOf_flatten (lens : List Nat) (bytes : List Byte) : (chunksOf lens bytes).flatten = bytes := by
  induction lens generalizing bytes with
  | nil => exact fullChunks_flatten _ _ (Nat.le_refl _)
  | cons n lens ih => rw [chunksOf, List.flatten_cons, ih, List.take_append_drop]

/-- Every chunk of a split fits one UPDATE (R85). -/
theorem chunksOf_length_le (lens : List Nat) (bytes : List Byte) :
    ∀ c ∈ chunksOf lens bytes, c.length ≤ maxChunk := by
  induction lens generalizing bytes with
  | nil => exact fullChunks_length_le _ _
  | cons n lens ih => exact List.forall_mem_cons.2 ⟨by simp, ih _⟩

/-- Any split into chunks that fit is one of these: no split is shut out (R171, R173). -/
theorem chunksOf_lengths (chunks : List (List Byte)) (h : ∀ c ∈ chunks, c.length ≤ maxChunk) :
    chunksOf (chunks.map List.length) chunks.flatten = chunks := by
  induction chunks with
  | nil => rfl
  | cons c chunks ih =>
    obtain ⟨hc, hcs⟩ := List.forall_mem_cons.1 h
    simp [chunksOf, Nat.min_eq_left hc, ih hcs]

end Sys2Proof.Machine
end

