-- ==== Sys2Proof/Laws/PerInstr.lean ====
section
/-! SUPPORT. Statements made for every instruction as syntax: the descriptor of a well-formed command
is in that command's row of spec/opcode_table.json (30_encoding.md R95). -/

namespace Sys2Proof.Laws.TableRow

open Sys2Proof

/-- The encoded descriptor lies in the command's own row: `d & mask = match`. -/
def Statement (i : Instr) : Prop := i.wellFormed → rowApplies (rowOf i) (encode i) = true

theorem openCtx (dir : Dir) (klen ivlen : Nat) : Statement (.openCtx dir klen ivlen) := by
  intro _
  have key : ∀ (b : BitVec 1) (k v : BitVec 8),
      (0x01#8 ++ 0#7 ++ b ++ k ++ v : BitVec 32) &&& 0xFFFE0000#32 = 0x01000000#32 := by
    intro b k v
    ext i hi
    simp only [BitVec.getElem_and, BitVec.getElem_append]
    interval_cases i <;> simp
  exact decide_eq_true (key (bitOfDir dir) (BitVec.ofNat 8 klen) (BitVec.ofNat 8 ivlen))

theorem update (len : Nat) : Statement (.update len) := by
  intro _
  have key : ∀ v : BitVec 16, (0x02#8 ++ 0x00#8 ++ v : BitVec 32) &&& 0xFFFF0000#32 = 0x02000000#32 := by
    intro v
    ext i hi
    simp only [BitVec.getElem_and, BitVec.getElem_append]
    interval_cases i <;> simp
  exact decide_eq_true (key (BitVec.ofNat 16 len))

theorem finish : Statement .finish := fun _ => by decide

theorem abandon : Statement .abandon := fun _ => by decide

end Sys2Proof.Laws.TableRow
end

