-- ==== Sys2Proof/Tests/Slice0.lean ====
section
/-! SUPPORT. Tests with expected values from spec/95_test_vectors.md and the worked examples of the
rules, and for every statement with hypotheses a named witness that meets them. -/

namespace Sys2Proof.Machine.Tests

open Sys2Proof Sys2Proof.Machine

/-! ### Small data -/

/-- The bytes of a list of numbers. -/
def bs (l : List Nat) : List Byte := l.map (BitVec.ofNat 8)

/-- `keyA` of 95_test_vectors.md section 2. -/
def keyA : List Byte :=
  bs ([1, 2, 3, 4, 5, 6, 7, 8, 9, 0, 1, 2, 3, 4, 5, 6]
    ++ [7, 8, 9, 0, 1, 2, 3, 4, 5, 6, 7, 8, 9, 0, 1, 2])

/-- `iv1` of 95_test_vectors.md section 2. -/
def iv1 : List Byte := bs (List.range 16)

/-- `iv1` under RotAddCore with `keyA`, the check value of 95_test_vectors.md section 2. -/
def check1 : List Byte :=
  bs [0x05, 0x0c, 0x0f, 0x08, 0x0b, 0x0e, 0x0d, 0x14, 0x17, 0x0c, 0x0b, 0x06, 0x19, 0x12, 0x15, 0x04]

/-- A block with no context, a test core attached, and these init answers to come. -/
def idle (core : AttachedCore) (answers : List InitAnswer) : State :=
  { State.reset with core := core, initAnswers := answers }

/-- A Fresh context under `keyA` and `iv1` with these bytes in CARRY. -/
def fresh (core : AttachedCore) (dir : Dir) (carry : List Byte) : State :=
  { idle core [] with
    phase := .fresh
    dir := dir
    key := bytesOf 32 keyA
    chain := bytesOf 16 iv1
    carry := bytesOf 16 carry
    carryLen := BitVec.ofNat 5 carry.length }

/-- The state with these bytes on DIN. -/
def feed (bytes : List Byte) (s : State) : State := { s with din := bytes }

/-- The outcome is a next state of which `p` holds. -/
def nextWith (o : Host.Outcome State Fault Refusal) (p : State → Bool) : Bool :=
  match o with
  | .next t => p t
  | .fault _ => false
  | .refused _ => false

/-! ### WellFormed: every check refuses an ill-formed command -/

theorem test_wellFormed_klen : ¬ (Instr.openCtx .encrypt 256 16).wellFormed := by decide

theorem test_wellFormed_ivlen : ¬ (Instr.openCtx .decrypt 32 256).wellFormed := by decide

theorem test_wellFormed_len : ¬ (Instr.update 65536).wellFormed := by decide

theorem test_wellFormed_accepts :
    (Instr.openCtx .encrypt 255 255).wellFormed ∧ (Instr.update 65535).wellFormed
      ∧ Instr.finish.wellFormed ∧ Instr.abandon.wellFormed := by decide

/-! ### Decoding: words written out field by field from R82, R85, R86 -/

/-- V2 of 95_test_vectors.md: OPEN, DIR = 1, KLEN = 32, IVLEN = 16. -/
theorem test_decode_open :
    decode (0b00000001#8 ++ 0b0000000#7 ++ 0b1#1 ++ 0b00100000#8 ++ 0b00010000#8)
      = .ok (.openCtx .decrypt 32 16) := by decide

/-- V5: OPEN, DIR = 0, KLEN = 32, IVLEN = 255: the two length fields are not swapped. -/
theorem test_decode_open_lengths :
    decode (0b00000001#8 ++ 0b0000000#7 ++ 0b0#1 ++ 0b00100000#8 ++ 0b11111111#8)
      = .ok (.openCtx .encrypt 32 255) := by decide

/-- R85: UPDATE with LEN = 0x0102. -/
theorem test_decode_update :
    decode (0b00000010#8 ++ 0b00000000#8 ++ 0b00000001#8 ++ 0b00000010#8) = .ok (.update 258) := by
  decide

/-- V9a. -/
theorem test_decode_finish : decode (0b00000011#8 ++ 0b000000000000000000000000#24) = .ok .finish := by
  decide

/-- V9c. -/
theorem test_decode_abandon : decode (0b00000100#8 ++ 0b000000000000000000000000#24) = .ok .abandon := by
  decide

/-- V6, V9, V9b, V9d, V9f, V9g, and the highest reserved bits of OPEN and UPDATE. -/
theorem test_decode_illegal :
    decode 0x01022010#32 = .error .reservedOpen ∧ decode 0x01800000#32 = .error .reservedOpen ∧
    decode 0x02010000#32 = .error .reservedUpdate ∧ decode 0x02800000#32 = .error .reservedUpdate ∧
    decode 0x03000001#32 = .error .reservedFinish ∧ decode 0x04800000#32 = .error .reservedAbandon ∧
    decode 0x05000000#32 = .error (.undefinedOpcode 5#8) ∧
    decode 0xFFFFFFFF#32 = .error (.undefinedOpcode 0xFF#8) := by decide

/-- The encoder against the words of R96 and V4. -/
theorem test_encode :
    encode (.openCtx .encrypt 32 16) = 0x01002010#32 ∧ encode (.openCtx .decrypt 255 0) = 0x0101FF00#32 ∧
    encode (.update 65535) = 0x0200FFFF#32 ∧ encode .finish = 0x03000000#32 ∧
    encode .abandon = 0x04000000#32 := by decide

/-- R58: most significant byte first. -/
theorem test_descriptor_bytes : descToBytes 0x01012010#32 = bs [0x01, 0x01, 0x20, 0x10] := by decide

/-- V3, V7, V9a, V9c: the opcode table's rows with operands of zeros. -/
theorem test_decodeTableWord :
    decodeTableWord 32 0x01000000 = some (.openCtx .encrypt 0 0) ∧
    decodeTableWord 32 0x02000000 = some (.update 0) ∧
    decodeTableWord 32 0x03000000 = some .finish ∧
    decodeTableWord 32 0x04000000 = some .abandon ∧
    decodeTableWord 32 0x05000000 = none := by decide

/-! ### The test cores -/

/-- The check value of 95_test_vectors.md section 2, both ways. -/
theorem test_rotAdd_check_value :
    (coreEnc .rotAdd (bytesOf 32 keyA) (bytesOf 16 iv1)).toList = check1 ∧
    (coreDec .rotAdd (bytesOf 32 keyA) (bytesOf 16 check1)).toList = iv1 := by decide +kernel

/-! ### OPEN -/

/-- R118's worked example. -/
theorem test_open_loads :
    nextWith (exec (.openCtx .decrypt 32 16) (feed (keyA ++ iv1) (idle .external [.ok]))) (fun t =>
      t.phase == .fresh && t.dir == .decrypt && t.key.toList == keyA && t.chain.toList == iv1
        && t.carryLen == 0#5 && t.rsp == [0x00000000#32]) = true := by decide +kernel

/-- P7 steps 4, 5, 6: IV length, key length first, init failure. -/
theorem test_open_errors :
    nextWith (exec (.openCtx .encrypt 32 8) (feed (keyA ++ iv1) (idle .external [])))
      (fun t => t.phase == .idle && t.rsp == [0x02000000#32]) = true ∧
    nextWith (exec (.openCtx .encrypt 16 8) (feed (keyA ++ iv1) (idle .external [])))
      (fun t => t.phase == .idle && t.rsp == [0x01000000#32] && t.din.length == 24) = true ∧
    nextWith (exec (.openCtx .encrypt 32 16) (feed (keyA ++ iv1) (idle .external [.fail])))
      (fun t => t.phase == .idle && t.rsp == [0x03000000#32]) = true := by decide +kernel

/-! ### UPDATE -/

/-- V19a: RotAddCore, Encrypt, sixteen zero bytes. -/
theorem test_update_encrypt :
    nextWith (exec (.update 16) (feed (bs (List.replicate 16 0)) (fresh .rotAdd .encrypt []))) (fun t =>
      t.dout == check1 && t.chain.toList == check1 && t.carryLen == 0#5 && t.rsp == [0x00000010#32])
      = true := by decide +kernel

/-- V19b: RotAddCore, Decrypt, the seventeenth byte releases the block. -/
theorem test_update_decrypt :
    nextWith (exec (.update 17) (feed (check1 ++ bs [0x1a]) (fresh .rotAdd .decrypt []))) (fun t =>
      t.dout == bs (List.replicate 16 0) && t.chain.toList == check1 && carryBytes t == bs [0x1a]
        && t.rsp == [0x00000010#32]) = true := by decide +kernel

/-! ### FINISH -/

/-- V23: IdCore, Encrypt, `aa` in CARRY; and the second block of V42: RotAddCore, chained from the
first. -/
theorem test_finish_encrypt :
    nextWith (exec .finish (fresh .identity .encrypt (bs [0xaa]))) (fun t =>
      t.dout == bs [0xaa, 0x0e, 0x0d, 0x0c, 0x0b, 0x0a, 9, 8, 7, 6, 5, 4, 3, 2, 1, 0]
        && t.phase == .finalized && t.rsp == [0x00000010#32]) = true ∧
    nextWith (exec .finish { fresh .rotAdd .encrypt [] with chain := bytesOf 16 check1 }) (fun t =>
      t.dout == bs [0x1a, 0x29, 0x12, 0x1f, 0x22, 0x21, 0x08, 0x0b, 0x20, 0x1d, 0x10, 0x03, 0x0c, 0x09,
        0x18, 0x19]) = true := by decide +kernel

/-- V41 and R163: RotAddCore, Decrypt, the all-padding block under `keyA`; and a partial block. -/
theorem test_finish_decrypt :
    nextWith (exec .finish (fresh .rotAdd .decrypt (bs [0x15, 0x1c, 0x1f, 0x18, 0x1b, 0x1e, 0x1d, 0x24,
      0x27, 0x1c, 0x1b, 0x16, 0x29, 0x22, 0x25, 0x14])))
      (fun t => t.dout == [] && t.phase == .finalized && t.rsp == [0x00000000#32]) = true ∧
    nextWith (exec .finish (fresh .rotAdd .decrypt check1))
      (fun t => t.dout == [] && t.phase == .finalized && t.rsp == [0x04000000#32]) = true ∧
    nextWith (exec .finish (fresh .rotAdd .decrypt (bs [1, 2, 3])))
      (fun t => t.dout == [] && t.phase == .finalized && t.rsp == [0x06000000#32]) = true := by
  decide +kernel

/-- V22: false accept, N = 17, X[14] wrong, and N = 16 with a wrong first byte. -/
theorem test_unpad :
    unpad (bytesOf 16 (bs (List.replicate 15 0x10 ++ [1]))) = some (bs (List.replicate 15 0x10)) ∧
    unpad (bytesOf 16 (bs (List.range 15 ++ [0x11]))) = none ∧
    unpad (bytesOf 16 (bs (List.replicate 13 0 ++ [3, 2, 3]))) = none ∧
    unpad (bytesOf 16 (bs (0x0f :: List.replicate 15 0x10))) = none ∧
    unpad (bytesOf 16 (bs (List.replicate 16 0x0f))) = some (bs [0x0f]) := by decide +kernel

/-! ### ABANDON -/

/-- R120's worked example: five bytes in CARRY are dropped and never output. -/
theorem test_abandon :
    nextWith (exec .abandon (fresh .external .encrypt (bs [1, 2, 3, 4, 5])))
      (fun t => t.phase == .idle && t.dout == [] && t.rsp == [0x00000000#32]
        && t.key == Vector.replicate 32 0#8) = true := by decide +kernel

/-- P7 step 12: a second ABANDON answers OK as well. -/
theorem test_abandon_idle :
    nextWith (exec .abandon (idle .external [])) (fun t => t.phase == .idle && t.rsp == [0x00000000#32])
      = true := by decide +kernel

/-! ### The step -/

/-- P7 step 2: an illegal descriptor takes no payload. -/
theorem test_step_illegal :
    nextWith (step { feed (bs [7]) (idle .external []) with cmd := [0x05000000#32] })
      (fun t => t.rsp == [0x80000000#32] && t.din == bs [7] && t.cmd == []) = true := by decide +kernel

/-- The first instruction after reset: each row of the table with operands of zeros, from R118, R131,
R151, R120. -/
theorem test_withFetchWord :
    nextWith (step (State.reset.withFetchWord 32 0x01000000)) (fun t => t.rsp == [0x01000000#32]) = true ∧
    nextWith (step (State.reset.withFetchWord 32 0x02000000)) (fun t => t.rsp == [0x81000000#32]) = true ∧
    nextWith (step (State.reset.withFetchWord 32 0x03000000)) (fun t => t.rsp == [0x81000000#32]) = true ∧
    nextWith (step (State.reset.withFetchWord 32 0x04000000)) (fun t => t.rsp == [0x00000000#32]) = true
      := by decide +kernel

/-! ### The host -/

/-- What a session ended with. -/
def endsWith (o : Host.Outcome Session Fault Refusal) (p : Session → Bool) : Bool :=
  match o with
  | .next r => p r
  | .fault _ => false
  | .refused _ => false

/-- A session whose ending and output were tested is one with that ending and output. -/
theorem session_of_endsWith {o : Host.Outcome Session Fault Refusal} {e : Ending} {out : List Byte}
    (h : endsWith o (fun r => r.ending == e && r.output == out) = true) : ∃ t, o = .next ⟨e, out, t⟩ := by
  cases o with
  | next r =>
    obtain ⟨_, _, t⟩ := r
    simp_all [endsWith]
  | fault => simp [endsWith] at h
  | refused => simp [endsWith] at h

/-- R171 with P1's core: the empty message under IdCore is the IV and one block of padding combined with
it (R164). -/
theorem test_encryptStream :
    endsWith (encryptStream keyA iv1 [] [] (idle .identity [.ok]))
      (fun r => r.ending == .complete && r.output == iv1 ++ bs (List.range' 16 16)) = true := by
  decide +kernel

/-- R173, R164: that stream, cut after 3 ciphertext bytes, is the empty message again. -/
theorem test_decryptStream :
    endsWith (decryptStream keyA (iv1 ++ bs (List.range' 16 16)) true [3] (idle .identity [.ok]))
      (fun r => r.ending == .complete && r.output == [] && r.state.phase == .finalized) = true := by
  decide +kernel

/-- R174: streams of 15, 31 and 33 bytes: no IV; rejected before OPEN; rejected by FINISH, with the
plaintext block already received discarded. -/
theorem test_decryptStream_rejects :
    endsWith (decryptStream keyA (bs (List.range 15)) true [] (idle .identity [.ok]))
      (fun r => r == ⟨.noIv, [], idle .identity [.ok]⟩) = true ∧
    endsWith (decryptStream keyA (bs (List.range 31)) true [] (idle .identity [.ok]))
      (fun r => r == ⟨.failed .malformedStreamLength, [], idle .identity [.ok]⟩) = true ∧
    endsWith (decryptStream keyA (bs (List.range 33)) false [] (idle .identity [.ok]))
      (fun r => r.ending == .failed .malformedStreamLength && r.output == []
        && r.state.phase == .finalized) = true := by decide +kernel

/-- R175, R229: an OPEN that finds a Fresh context ends the session, and the ABANDON the host owes ends
the context. -/
theorem test_session_busy :
    endsWith (encryptStream keyA iv1 [] [] (fresh .identity .encrypt [1#8]))
      (fun r => r.ending == .failed .contextBusy && r.output == [] && r.state.phase == .idle) = true := by
  decide +kernel

/-- R179: a host that gives up after the OPEN leaves no context open. -/
theorem test_session_gaveUp :
    endsWith (abandonAfter 1 (streamCommands .encrypt keyA iv1 [iv1]) (idle .identity [.ok]))
      (fun r => r.ending == .gaveUp && r.output == [] && r.state.phase == .idle) = true := by
  decide +kernel

/-! ### Witnesses: for every statement with hypotheses, data that meet all of them together -/

/-- The state with this descriptor waiting on CMD. -/
def waiting (d : Desc) (s : State) : State := { s with cmd := [d] }

/-- A finished context, a test core attached. -/
def finalized (core : AttachedCore) (answers : List InitAnswer) : State :=
  { idle core answers with phase := .finalized }

/-- A Fresh context with a full CARRY: one withheld block of direction Decrypt. -/
def withheld (core : AttachedCore) : State := fresh core .decrypt (bs (List.range 16))

theorem witness_DecodeInvertsEncode :
    (Instr.openCtx .decrypt 255 255).wellFormed ∧ (Instr.openCtx .encrypt 0 0).wellFormed ∧
    (Instr.update 65535).wellFormed ∧ (Instr.update 0).wellFormed ∧ Instr.finish.wellFormed ∧
    Instr.abandon.wellFormed := by decide

theorem witness_EncodeInvertsDecode :
    decode 0x0101FFFF#32 = .ok (.openCtx .decrypt 255 255) ∧ decode 0x0200FFFF#32 = .ok (.update 65535) ∧
    decode 0x03000000#32 = .ok .finish ∧ decode 0x04000000#32 = .ok .abandon := by decide

/-- One value on each side of every row's mask. -/
theorem witness_DecodeReadsTableRows :
    (∃ i, decode 0x0101FFFF#32 = .ok i) ∧ (∃ e, decode 0x0103FFFF#32 = .error e) ∧
    (∃ i, decode 0x0200FFFF#32 = .ok i) ∧ (∃ e, decode 0x02010000#32 = .error e) ∧
    (∃ e, decode 0x03000001#32 = .error e) ∧ (∃ e, decode 0x04000001#32 = .error e) :=
  ⟨⟨_, rfl⟩, ⟨_, rfl⟩, ⟨_, rfl⟩, ⟨_, rfl⟩, ⟨_, rfl⟩, ⟨_, rfl⟩⟩

/-- Illegal descriptors of each kind, at the ends of the fields, waiting on CMD of a Fresh context. -/
theorem witness_IllegalDescriptorIsAnswered :
    ∀ d ∈ [0x00FFFFFF#32, 0x05000000#32, 0xFFFFFFFF#32, 0x01020000#32, 0x01FEFFFF#32, 0x02010000#32,
      0x02FF0000#32, 0x03000001#32, 0x04800000#32],
      ∃ (s : State) (rest : List Desc), s.phase = .fresh ∧ s.resetReq = false ∧ s.cmd = d :: rest ∧
        ∃ e, decode d = .error e := by
  intro d hd
  fin_cases hd <;> exact ⟨waiting _ (fresh .identity .encrypt [1#8]), [], rfl, rfl, rfl, _, rfl⟩

theorem witness_DescriptorBytesReadBack :
    descOfBytes (bs [0x01, 0x01, 0x20, 0x10]) = some 0x01012010#32 := by decide

theorem witness_ResponseFieldsReadBack :
    16777215 < 2 ^ 24 ∧ statusCode .contextBusy = statusCode .contextBusy := by decide

theorem witness_StepRunsDecodedCommand :
    ∃ (s : State) (d : Desc) (rest : List Desc) (i : Instr),
      s.resetReq = false ∧ s.cmd = d :: rest ∧ decode d = .ok i :=
  ⟨waiting 0x01002010#32 (feed (keyA ++ iv1) (idle .identity [.ok])), _, _, _, rfl, rfl, rfl⟩

theorem witness_StepIdleHoldsState : State.reset.resetReq = false ∧ State.reset.cmd = [] := by decide

/-- One byte short of the announced payload, and exactly enough. -/
theorem witness_CommandStopsOnlyWhenStarved :
    (feed (bs (List.replicate 47 0)) (idle .identity [])).din.length < payloadLen (.openCtx .encrypt 32 16) ∧
    payloadLen (.openCtx .encrypt 32 16) ≤ (feed (bs (List.replicate 48 0)) (idle .identity [])).din.length ∧
    (feed [] (fresh .identity .decrypt [])).din.length < payloadLen (.update 1) ∧
    payloadLen (.update 0) ≤ (feed [] (fresh .identity .decrypt [])).din.length := by decide

theorem witness_PayloadTakenWhateverTheStatus :
    (∃ t, exec (.openCtx .encrypt 16 8) (feed (keyA ++ iv1) (idle .identity [])) = .next t) ∧
    (∃ t, exec (.update 3) (feed (bs [1, 2, 3]) (idle .identity [])) = .next t) ∧
    (∃ t, exec .finish (idle .identity []) = .next t) ∧ (∃ t, exec .abandon (idle .identity []) = .next t) ∧
    ∃ (s t : State) (d : Desc) (rest : List Desc), s.resetReq = false ∧ s.cmd = d :: rest ∧
      (∃ e, decode d = .error e) ∧ step s = .next t :=
  ⟨⟨_, rfl⟩, ⟨_, rfl⟩, ⟨_, rfl⟩, ⟨_, rfl⟩,
    waiting 0x05000000#32 (feed (bs [7]) (idle .identity [])), _, _, _, rfl, rfl, ⟨_, rfl⟩, rfl⟩

/-- A legal descriptor whose command outputs, and an illegal one. -/
theorem witness_OneResponsePerCommand :
    ∀ d ∈ [0x03000000#32, 0x00000000#32],
      ∃ (s t : State) (rest : List Desc), s.phase = .fresh ∧ s.Inv ∧ s.resetReq = false ∧
        s.cmd = d :: rest ∧ step s = .next t := by
  intro d hd
  fin_cases hd <;>
    exact ⟨waiting _ (fresh .identity .encrypt [1#8]), _, _, rfl, by decide, rfl, rfl, rfl⟩

/-- The bounds themselves: 15 bytes in direction Encrypt, 16 in direction Decrypt. -/
theorem witness_StepKeepsCarryBounds :
    (∃ s t : State, s.phase = .fresh ∧ s.carryLen = 15#5 ∧ s.Inv ∧ step s = .next t) ∧
    (∃ s t : State, s.phase = .fresh ∧ s.carryLen = 16#5 ∧ s.Inv ∧ step s = .next t) :=
  ⟨⟨waiting 0x02000001#32 (feed [1#8] (fresh .identity .encrypt (bs (List.range 15)))), _, rfl, rfl,
      by decide, rfl⟩,
    ⟨waiting 0x02000001#32 (feed [1#8] (withheld .identity)), _, rfl, rfl, by decide, rfl⟩⟩

/-- Every command in every phase, with its payload there; and an illegal descriptor. -/
theorem witness_PhaseTransitionTable :
    (∀ i ∈ [Instr.openCtx .encrypt 32 16, .update 48, .finish, .abandon],
      ∀ s ∈ [idle .identity [.ok], withheld .identity, finalized .identity [.fail]],
        payloadLen i ≤ (feed (keyA ++ iv1) s).din.length) ∧
    ∃ (s : State) (d : Desc) (rest : List Desc), s.resetReq = false ∧ s.cmd = d :: rest ∧
      ∃ e, decode d = .error e :=
  ⟨by decide, waiting 0x00000000#32 (idle .identity []), _, _, rfl, rfl, _, rfl⟩

/-- A failure that changes nothing, and one of each of the two that end the context. -/
theorem witness_FailedCommandsKeepTheContext :
    (∃ (s t : State) (d : Desc) (rest : List Desc), s.resetReq = false ∧ s.cmd = d :: rest ∧
      step s = .next t ∧ t.rsp = s.rsp ++ [response .noContext 0] ∧ Status.noContext ≠ .ok) ∧
    (∃ (s t : State) (d : Desc) (rest : List Desc), s.resetReq = false ∧ s.cmd = d :: rest ∧
      step s = .next t ∧ t.rsp = s.rsp ++ [response .malformedStreamLength 0] ∧
      Status.malformedStreamLength ≠ .ok) ∧
    ∃ (s t : State) (d : Desc) (rest : List Desc), s.resetReq = false ∧ s.cmd = d :: rest ∧
      step s = .next t ∧ t.rsp = s.rsp ++ [response .invalidPadding 0] ∧ Status.invalidPadding ≠ .ok :=
  ⟨⟨waiting 0x03000000#32 (idle .identity []), _, _, _, rfl, rfl, rfl, by decide, by decide⟩,
    ⟨waiting 0x03000000#32 (fresh .identity .decrypt []), _, _, _, rfl, rfl, rfl, by decide +kernel, by decide⟩,
    ⟨waiting 0x03000000#32 (withheld .identity), _, _, _, rfl, rfl, rfl, by decide +kernel, by decide⟩⟩

/-- Two different states of an idle block, and two of a Fresh context that differ in CARRY above
`carry_len`. -/
theorem witness_VoidRegistersCannotBeObserved :
    (∃ s t : State, s ≠ t ∧ SameButVoid s t) ∧ ∃ s t : State, s.phase = .fresh ∧ s ≠ t ∧ SameButVoid s t :=
  ⟨⟨idle .identity [], { idle .identity [] with key := bytesOf 32 keyA }, by decide +kernel,
      by decide +kernel⟩,
    ⟨fresh .identity .encrypt [1#8],
      { fresh .identity .encrypt [1#8] with carry := bytesOf 16 (bs (List.replicate 16 1)) }, rfl,
      by decide +kernel, by decide +kernel⟩⟩

theorem witness_KeyAndDirectionAreFixed :
    ∃ s t : State, s.phase = .fresh ∧ t.phase = .fresh ∧ step s = .next t :=
  ⟨waiting 0x02000001#32 (feed [1#8] (withheld .identity)), _, rfl, rfl, rfl⟩

theorem witness_LeavingFreshReleases :
    ∀ i ∈ [Instr.openCtx .encrypt 0 0, .update 0, .finish, .abandon],
      ∃ s t : State, s.phase = .fresh ∧ exec i s = .next t := by
  intro i hi
  fin_cases hi <;> exact ⟨withheld .identity, _, rfl, rfl⟩

theorem witness_CoreRequestsAreBounded :
    ∃ s t : State, s.phase = .fresh ∧ s.Inv ∧ exec (.update 16) s = .next t :=
  ⟨feed (bs (List.range 16)) (withheld .identity), _, rfl, by decide, rfl⟩

/-- From Idle and from Finalized. -/
theorem witness_OpenLoadsContext :
    ∀ s ∈ [feed (keyA ++ iv1 ++ [7#8]) (idle .external [.ok]),
      feed (keyA ++ iv1 ++ [7#8]) (finalized .external [.ok])],
      ∃ kbytes ivbytes rest : List Byte, s.phase ≠ .fresh ∧ kbytes.length = 32 ∧ ivbytes.length = 16 ∧
        s.din = kbytes ++ ivbytes ++ rest ∧ initAnswer s = .ok := by
  intro s hs
  fin_cases hs <;> exact ⟨keyA, iv1, [7#8], by decide, by decide, by decide, rfl, rfl⟩

theorem witness_OpenOnFreshIsBusy :
    (feed (keyA ++ iv1) (withheld .external)).phase = .fresh ∧
    32 + 16 ≤ (feed (keyA ++ iv1) (withheld .external)).din.length := by decide

/-- The key lengths next to 32, and 0. -/
theorem witness_OpenRejectsKeyLength :
    ∀ klen ∈ [0, 31, 33],
      (feed (bs (List.replicate 600 0)) (idle .external [])).phase ≠ .fresh ∧ klen ≠ 32 ∧
      klen + 255 ≤ (feed (bs (List.replicate 600 0)) (idle .external [])).din.length := by decide +kernel

/-- The IV lengths next to 16, with a right and with a wrong key length. -/
theorem witness_OpenRejectsIvLength :
    ∀ klen ∈ [32, 31], ∀ ivlen ∈ [0, 15, 17],
      (feed (bs (List.replicate 600 0)) (finalized .external [])).phase ≠ .fresh ∧ ivlen ≠ 16 ∧
      klen + ivlen ≤ (feed (bs (List.replicate 600 0)) (finalized .external [])).din.length := by
  decide +kernel

/-- Both answers. -/
theorem witness_OpenFollowsTheInitAnswer :
    ∀ a ∈ [InitAnswer.ok, .fail],
      (feed (keyA ++ iv1) (idle .external [a])).phase ≠ .fresh ∧
      48 ≤ (feed (keyA ++ iv1) (idle .external [a])).din.length ∧
      (feed (keyA ++ iv1) (idle .external [a])).initAnswers = a :: [] := by decide

/-- One OPEN for each check that can fail, and one that passes all. -/
theorem witness_OpenChecksInOrder :
    16 + 8 ≤ (feed (keyA ++ iv1) (idle .external [])).din.length ∧
    openStatus 16 8 (withheld .external) = .contextBusy ∧
    openStatus 16 8 (idle .external []) = .invalidKeyLength ∧
    openStatus 32 8 (idle .external []) = .invalidIvLength ∧
    openStatus 32 16 (idle .external [.fail]) = .cipherInitFailure ∧
    openStatus 32 16 (finalized .external [.ok]) = .ok := by decide

theorem witness_OpenFrame :
    (∃ s t : State, exec (.openCtx .decrypt 32 16) s = .next t ∧ openStatus 32 16 s = .ok) ∧
    ∃ s t : State, exec (.openCtx .decrypt 32 16) s = .next t ∧ openStatus 32 16 s = .contextBusy :=
  ⟨⟨feed (keyA ++ iv1) (idle .external [.ok]), _, rfl, rfl⟩,
    feed (keyA ++ iv1) (withheld .external), _, rfl, rfl⟩

theorem witness_AbandonAlwaysEndsIdle :
    (withheld .external).phase = .fresh ∧ (idle .external []).phase = .idle := by decide

theorem witness_AbandonFrame :
    (∃ s t : State, s.phase = .fresh ∧ exec .abandon s = .next t) ∧
    ∃ s t : State, s.phase = .finalized ∧ exec .abandon s = .next t :=
  ⟨⟨withheld .external, _, rfl, rfl⟩, finalized .external [], _, rfl, rfl⟩

/-- The largest `carry_len` of direction Encrypt, and a chunk that completes the block. -/
theorem witness_UpdateEncryptClosedForm :
    ∃ (s : State) (chunk rest : List Byte), s.phase = .fresh ∧ s.dir = .encrypt ∧ s.carryLen.toNat = 15 ∧
      s.carryLen.toNat ≤ 15 ∧ s.din = chunk ++ rest ∧ chunk ≠ [] :=
  ⟨feed [1#8, 2#8] (fresh .external .encrypt (bs (List.range 15))), [1#8], [2#8], rfl, rfl, rfl, by decide, rfl,
    by decide⟩

/-- Both ends of `carry_len` of direction Decrypt: no byte at all, and a withheld block. -/
theorem witness_UpdateDecryptClosedForm :
    (∃ (s : State) (chunk rest : List Byte), s.phase = .fresh ∧ s.dir = .decrypt ∧ s.carryLen.toNat = 0 ∧
      s.carryLen.toNat ≤ 16 ∧ s.din = chunk ++ rest ∧ chunk = []) ∧
    ∃ (s : State) (chunk rest : List Byte), s.phase = .fresh ∧ s.dir = .decrypt ∧ s.carryLen.toNat = 16 ∧
      s.carryLen.toNat ≤ 16 ∧ s.din = chunk ++ rest ∧ chunk ≠ [] :=
  ⟨⟨feed [2#8] (fresh .external .decrypt []), [], [2#8], rfl, rfl, rfl, by decide, rfl, rfl⟩,
    feed [1#8, 2#8] (withheld .external), [1#8], [2#8], rfl, rfl, rfl, by decide, rfl, by decide⟩

/-- Seventeen bytes cut in two ways. -/
theorem witness_ChunkingInvariance :
    ∃ (s : State) (lens lens' : List Nat), s.phase = .fresh ∧ lens ≠ lens' ∧ lens.sum = lens'.sum ∧
      lens.sum ≤ s.din.length :=
  ⟨feed (bs (List.range 17)) (fresh .external .decrypt []), [17], [0, 16, 1], rfl, by decide, by decide, by decide⟩

/-- Both directions, with bytes and with none. -/
theorem witness_InvariantsSinceOpen :
    ∀ dir ∈ [Dir.encrypt, .decrypt], ∀ lens ∈ [[], [3, 14]],
      ∃ s0 s t : State, s0.phase ≠ .fresh ∧ exec (.openCtx dir 32 16) s0 = .next s ∧ s.phase = .fresh ∧
        runUpdates lens s = .next t := by
  intro dir hd lens hl
  fin_cases hd <;> fin_cases hl <;>
    exact ⟨feed (keyA ++ iv1 ++ bs (List.range 17)) (idle .identity [.ok]), _, _, by decide, rfl, rfl, rfl⟩

theorem witness_UpdateFrame :
    (∃ s t : State, s.phase = .fresh ∧ exec (.update 1) s = .next t) ∧
    ∃ s t : State, s.phase ≠ .fresh ∧ exec (.update 1) s = .next t :=
  ⟨⟨feed [1#8] (withheld .external), _, rfl, rfl⟩, feed [1#8] (finalized .external []), _, by decide, rfl⟩

theorem witness_NoContextWhenIdle :
    (feed [1#8] (idle .external [])).phase = .idle ∧ 1 ≤ (feed [1#8] (idle .external [])).din.length := by
  decide

/-- And an OPEN and an ABANDON that complete there. -/
theorem witness_ContextFinalizedAfterFinish :
    (feed [1#8] (finalized .external [])).phase = .finalized ∧
    1 ≤ (feed [1#8] (finalized .external [])).din.length ∧
    (∃ t, exec .abandon (feed [1#8] (finalized .external [])) = .next t) ∧
    ∃ t, exec (.openCtx .encrypt 1 0) (feed [1#8] (finalized .external [])) = .next t :=
  ⟨rfl, by decide, ⟨_, rfl⟩, ⟨_, rfl⟩⟩

theorem witness_DecryptBlockUndoesEncryptBlock :
    ∃ s u : State, CoreInverse s.core ∧ u.core = s.core ∧ u.key = s.key ∧ u.chain = s.chain :=
  ⟨fresh .identity .encrypt [], fresh .identity .decrypt [], fun _ _ => rfl, rfl, rfl, rfl⟩

/-- The first block and a later one. -/
theorem witness_BlockDependencies :
    [bytesOf 16 iv1, bytesOf 16 check1][0]? = some (bytesOf 16 iv1) ∧
    [bytesOf 16 iv1, bytesOf 16 check1][1]? = some (bytesOf 16 check1) := ⟨rfl, rfl⟩

/-- The shortest and the longest remainder. -/
theorem witness_PadAppendsLengthBytes :
    ([] : List Byte).length ≤ 15 ∧ (bs (List.range 15)).length ≤ 15 := by decide

theorem witness_UnpadUndoesPad :
    ([] : List Byte).length ≤ 15 ∧ (bs (List.range 15)).length ≤ 15 := by decide

/-- An empty CARRY and the fullest. -/
theorem witness_FinishEncryptEmitsPaddedBlock :
    ∀ s ∈ [fresh .external .encrypt [], fresh .external .encrypt (bs (List.range 15))],
      s.phase = .fresh ∧ s.dir = .encrypt ∧ s.carryLen.toNat ≤ 15 := by decide +kernel

/-- No byte, a partial block, and a withheld block. -/
theorem witness_FinishDecryptOutcomes :
    ∀ s ∈ [fresh .external .decrypt [], fresh .external .decrypt (bs (List.range 15)), withheld .external],
      s.phase = .fresh ∧ s.dir = .decrypt := by decide +kernel

/-- No ciphertext, one block, and one byte more. -/
theorem witness_MalformedLengthVerdict :
    ∀ lens ∈ [[], [16], [16, 1]],
      ∃ s0 s t : State, s0.phase ≠ .fresh ∧ exec (.openCtx .decrypt 32 16) s0 = .next s ∧ s.phase = .fresh ∧
        runUpdates lens s = .next t := by
  intro lens hl
  fin_cases hl <;>
    exact ⟨feed (keyA ++ iv1 ++ bs (List.range 17)) (idle .identity [.ok]), _, _, by decide, rfl, rfl, rfl⟩

theorem witness_FinishFrame :
    (∃ s t : State, s.phase = .fresh ∧ exec .finish s = .next t) ∧
    ∃ s t : State, s.phase ≠ .fresh ∧ exec .finish s = .next t :=
  ⟨⟨withheld .external, _, rfl, rfl⟩, finalized .external [], _, by decide, rfl⟩

theorem witness_EncryptionOutputLength :
    ∃ (s : State) (key iv : List Byte), s.phase ≠ .fresh ∧ HostSynced s ∧ key.length = 32 ∧
      iv.length = 16 ∧ initAnswer s = .ok :=
  ⟨idle .external [.ok], keyA, iv1, by decide, by decide +kernel, by decide, by decide, rfl⟩

/-- R164: the all-padding block under IdCore, which decrypts to the empty message. -/
theorem witness_DecryptionOutputLength :
    ∃ (s t : State) (key stream out : List Byte) (knows : Bool) (lens : List Nat), s.phase ≠ .fresh ∧
      HostSynced s ∧ key.length = 32 ∧ initAnswer s = .ok ∧
      decryptStream key stream knows lens s = .next ⟨.complete, out, t⟩ :=
  have ⟨t, ht⟩ := session_of_endsWith (e := .complete) (out := [])
    (o := decryptStream keyA (iv1 ++ bs (List.range' 16 16)) false [5] (idle .identity [.ok]))
    (by decide +kernel)
  ⟨_, t, keyA, _, [], _, _, by decide, by decide +kernel, by decide, rfl, ht⟩

/-- IdCore: both runs' premises, with a finished context as the block of the second. -/
theorem witness_EncryptThenDecryptRoundTrip :
    ∃ (s : State) (key iv : List Byte), CoreInverse s.core ∧ s.phase ≠ .fresh ∧ HostSynced s ∧
      key.length = 32 ∧ iv.length = 16 ∧ initAnswer s = .ok ∧
      ∃ w : State, w.core = s.core ∧ w.phase ≠ .fresh ∧ HostSynced w ∧ initAnswer w = .ok :=
  ⟨idle .identity [.ok], keyA, iv1, fun _ _ => rfl, by decide, by decide +kernel, by decide, by decide, rfl,
    finalized .identity [.ok], rfl, by decide, by decide +kernel, rfl⟩

/-- Lengths at the ends of each clause: 15; 16, 31 and 33; and 32, which is valid. -/
theorem witness_InvalidStreamIsRejected :
    streamLengthOk (bs (List.range 32)) = true ∧ (bs (List.range 15)).length < 16 ∧
    (∀ n ∈ [16, 31, 33], 16 ≤ (bs (List.range n)).length ∧ streamLengthOk (bs (List.range n)) = false) ∧
    (idle .identity [.ok]).phase ≠ .fresh ∧ HostSynced (idle .identity [.ok]) ∧ keyA.length = 32 ∧
    initAnswer (idle .identity [.ok]) = .ok := by decide +kernel

/-- From a Fresh context, an OPEN and an UPDATE with their payloads. -/
theorem witness_FailedSessionLeavesNothing :
    HostSynced (withheld .identity) ∧ (withheld .identity).phase = .fresh ∧
    ∀ c ∈ [HostCommand.mk (.openCtx .encrypt 32 16) (keyA ++ iv1), ⟨.update 16, iv1⟩, ⟨.finish, []⟩],
      c.instr.wellFormed ∧ c.payload.length = payloadLen c.instr := by
  refine ⟨by decide +kernel, rfl, fun c hc => ?_⟩
  fin_cases hc <;> exact ⟨by decide, by decide⟩

end Sys2Proof.Machine.Tests
end

/-! SUPPORT. The scope rules of 00_scope.md: both test cores have `CoreInverse` (R9), and a step is one
whole command (R12). -/

namespace Sys2Proof.Machine

open Sys2Proof

/-! ### The test cores -/

/-- RotAddCore (95_test_vectors.md section 2): adding the first half of the key and then combining with
the second is undone in the opposite order, and the rotation by one byte is turned back. -/
theorem rotAddDec_rotAddEnc (k : Key) (b : Block) : rotAddDec k (rotAddEnc k b) = b := by
  apply Vector.ext
  intro i h
  have rotation_turned_back : (i + 15 + 1) % 16 = i := by omega
  simp [rotAddDec, rotAddEnc, rotation_turned_back]

/-- Settles O42: IdCore changes nothing, and RotAddCore is inverted byte by byte. -/
theorem testCoresInvert : Obligations.TestCoresInvert :=
  ⟨fun _ _ => rfl, rotAddDec_rotAddEnc⟩

/-! ### One command for each step -/

/-- A legal descriptor's operands come from its fields, so they fit them (R84, R85). -/
theorem wellFormed_of_decode_eq_ok {d : Desc} {i : Instr} (h : decode d = .ok i) : i.wellFormed := by
  unfold decode at h
  split_ifs at h <;> cases h
  · exact ⟨BitVec.isLt _, BitVec.isLt _⟩ -- OPEN: KLEN and IVLEN are 8-bit fields
  · exact Nat.le_of_lt_succ (BitVec.isLt _) -- UPDATE: LEN is a 16-bit field
  · trivial -- FINISH
  · trivial -- ABANDON

/-- With no reset pending and a legal descriptor first on CMD, the step takes that descriptor and is
the meaning of its command (R12, R52). -/
theorem step_eq_exec {s : State} {d : Desc} {rest : List Desc} {i : Instr} (hreset : s.resetReq = false)
    (hcmd : s.cmd = d :: rest) (hd : decode d = .ok i) : step s = exec i { s with cmd := rest } := by
  simp [step, takeDesc, hreset, hcmd, hd]

/-- Settles O8: the operands fit their fields, and the step is the command's meaning. -/
theorem stepRunsDecodedCommand : Obligations.StepRunsDecodedCommand :=
  fun _ _ _ _ hreset hcmd hd => ⟨wellFormed_of_decode_eq_ok hd, step_eq_exec hreset hcmd hd⟩

end Sys2Proof.Machine

/-! SUPPORT. The state rules of 10_state.md: what each command leaves as it was (R35), what holds of the
registers between commands (R29, R37) and since OPEN, and that void registers stay unseen (R28). -/

namespace Sys2Proof.Machine

open Sys2Proof

/-! ### Reset -/

/-- Settles O11: each port is empty and `phase` is Idle where the reset state is written down. -/
theorem resetStateIsIdleAndEmpty : Obligations.ResetStateIsIdleAndEmpty :=
  ⟨rfl, rfl, rfl, rfl, rfl, rfl⟩

/-- The bounds of `carry_len` say nothing outside Fresh. -/
theorem inv_of_phase_ne_fresh {s : State} (h : s.phase ≠ .fresh) : s.Inv := fun hf => absurd hf h

/-- Settles O16: the reset state is not Fresh. -/
theorem resetHasCarryBounds : Obligations.ResetHasCarryBounds := inv_of_phase_ne_fresh (by decide)

theorem sameRegisters_refl (s : State) : SameRegisters s s := ⟨rfl, rfl, rfl, rfl, rfl, rfl⟩

/-! ### The frame of each command (R35) -/

theorem openStatus_din (klen ivlen : Nat) (s : State) (din : List Byte) :
    openStatus klen ivlen { s with din := din } = openStatus klen ivlen s := rfl

/-- OPEN, by the status it answers with: a failure changes no register and a success opens the context;
the core has been asked or not (R118). -/
theorem openChecked_by_status (dir : Dir) (klen ivlen : Nat) (kb iv : List Byte) (s : State) :
    (openStatus klen ivlen s ≠ .ok ∧ ∃ u, (u = s ∨ u = askInit s) ∧
      openChecked dir klen ivlen kb iv s = raise (openStatus klen ivlen s) u) ∨
    (openStatus klen ivlen s = .ok ∧
      openChecked dir klen ivlen kb iv s = complete [] (openContext dir kb iv (askInit s))) := by
  rcases openChecked_cases dir klen ivlen kb iv s with
    ⟨hp, h⟩ | ⟨hp, hk, h⟩ | ⟨hp, hk, hi, h⟩ | ⟨hp, hk, hi, ha, h⟩ | ⟨hp, hk, hi, ha, h⟩
  · have hst : openStatus klen ivlen s = .contextBusy := by simp [openStatus, hp]
    exact .inl ⟨by simp [hst], s, .inl rfl, by rw [h, hst]⟩
  · have hst : openStatus klen ivlen s = .invalidKeyLength := by simp [openStatus, hp, hk]
    exact .inl ⟨by simp [hst], s, .inl rfl, by rw [h, hst]⟩
  · have hst : openStatus klen ivlen s = .invalidIvLength := by simp [openStatus, hp, hk, hi]
    exact .inl ⟨by simp [hst], s, .inl rfl, by rw [h, hst]⟩
  · have hst : openStatus klen ivlen s = .cipherInitFailure := by simp [openStatus, hp, hk, hi, ha]
    exact .inl ⟨by simp [hst], askInit s, .inr rfl, by rw [h, hst]⟩
  · exact .inr ⟨by simp [openStatus, hp, hk, hi, ha], h⟩

/-- Settles O29: OPEN either raises its status or opens the context with `carry_len` 0. -/
theorem openFrame : Obligations.OpenFrame := by
  intro dir klen ivlen s t h
  obtain ⟨-, rfl⟩ := execOpen_eq_next.1 h
  rcases openChecked_by_status dir klen ivlen (s.din.take klen) ((s.din.drop klen).take ivlen)
    { s with din := s.din.drop (klen + ivlen) } with ⟨hst, u, rfl | rfl, he⟩ | ⟨hst, he⟩
  all_goals rw [openStatus_din] at hst; rw [he]
  · simp [hst, SameRegisters]
  · simp [hst, SameRegisters]
  · simp [hst, carryBytes]

/-- Settles O31: outside Fresh nothing is released, so only `phase` and the response differ. -/
theorem abandonFrame : Obligations.AbandonFrame := by
  intro s t h
  cases h
  by_cases hp : s.phase = .fresh <;> simp [hp, SameButVoid]

section
variable (d : Dir) (chunk : List Byte) (s : State)

@[simp] theorem chunker_phase : (chunker d chunk s).2.phase = s.phase := by
  rw [chunker_frame d chunk s]
@[simp] theorem chunker_dir : (chunker d chunk s).2.dir = s.dir := by
  rw [chunker_frame d chunk s]
@[simp] theorem chunker_key : (chunker d chunk s).2.key = s.key := by
  rw [chunker_frame d chunk s]
@[simp] theorem chunker_cmd : (chunker d chunk s).2.cmd = s.cmd := by
  rw [chunker_frame d chunk s]
@[simp] theorem chunker_core : (chunker d chunk s).2.core = s.core := by
  rw [chunker_frame d chunk s]
@[simp] theorem chunker_initAnswers : (chunker d chunk s).2.initAnswers = s.initAnswers := by
  rw [chunker_frame d chunk s]
@[simp] theorem chunker_resetReq : (chunker d chunk s).2.resetReq = s.resetReq := by
  rw [chunker_frame d chunk s]
@[simp] theorem chunker_draws : (chunker d chunk s).2.draws = s.draws := by
  rw [chunker_frame d chunk s]

end

/-- UPDATE outside Fresh answers an error, and on a Fresh context it is the chunker of `dir` (R131). -/
theorem updateChecked_cases (chunk : List Byte) (s : State) :
    (s.phase ≠ .fresh ∧ ∃ e, e ≠ .ok ∧ updateChecked chunk s = raise e s) ∨
    (s.phase = .fresh ∧
      updateChecked chunk s = complete (chunker s.dir chunk s).1 (chunker s.dir chunk s).2) := by
  cases hp : s.phase with
  | idle => exact .inl ⟨by decide, .noContext, by decide, by simp [updateChecked, hp]⟩
  | finalized => exact .inl ⟨by decide, .contextFinalized, by decide, by simp [updateChecked, hp]⟩
  | fresh => exact .inr ⟨rfl, updateChecked_fresh chunk s hp⟩

/-- Settles O37: an error writes no register, and a chunk keeps all but CHAIN, CARRY and `carry_len`. -/
theorem updateFrame : Obligations.UpdateFrame := by
  intro len s t h
  obtain ⟨-, rfl⟩ := execUpdate_eq_next.1 h
  rcases updateChecked_cases (s.din.take len) { s with din := s.din.drop len } with
    ⟨hp, e, -, he⟩ | ⟨hp, he⟩ <;> rw [he]
  · simp [SameRegisters]
  · simp [show s.phase = .fresh from hp]

/-- Settles O50: outside Fresh FINISH only answers, and in Fresh a block and the release touch neither
CMD, DIN nor what is attached. -/
theorem finishFrame : Obligations.FinishFrame := by
  intro s t h
  have h : execFinish s = .next t := h
  rcases execFinish_cases s with ⟨hp, he⟩ | ⟨hp, he⟩ | ⟨hp, -, he⟩ | ⟨hp, -, he⟩
  all_goals cases he.symm.trans h
  · simp [SameRegisters]
  · simp [SameRegisters]
  · simp [finishEnc, hp]
  · rcases finishDec_cases s with ⟨-, hd⟩ | ⟨-, -, hd⟩ | ⟨v, -, -, hd⟩ <;> simp [hd, hp]

/-! ### How a step ends in Fresh (R29, R37) -/

/-- FINISH never ends in Fresh (R111, R157). -/
theorem execFinish_phase_ne_fresh {s t : State} (h : execFinish s = .next t) : t.phase ≠ .fresh := by
  rcases execFinish_cases s with ⟨hp, he⟩ | ⟨hp, he⟩ | ⟨-, -, he⟩ | ⟨-, -, he⟩
  all_goals cases he.symm.trans h
  · simp [hp]
  · simp [hp]
  · simp [finishEnc]
  · rcases finishDec_cases s with ⟨-, hd⟩ | ⟨-, -, hd⟩ | ⟨v, -, -, hd⟩ <;> simp [hd]

/-- The registers of `t` are those of the Fresh state `s` after some chunk, whatever the ports hold. -/
def ContinuesContext (s t : State) : Prop :=
  s.phase = .fresh ∧ ∃ (chunk : List Byte) (u : State), SameRegisters s u ∧
    SameRegisters (chunker u.dir chunk u).2 t

theorem continuesContext_of_sameRegisters {s t : State} (hp : s.phase = .fresh)
    (h : SameRegisters s t) : ContinuesContext s t :=
  ⟨hp, [], s, sameRegisters_refl s, by cases hd : s.dir <;> exact h⟩

/-- A command that ends in Fresh continues the context there was or has opened an empty one. -/
theorem exec_to_fresh {i : Instr} {s t : State} (h : exec i s = .next t) (ht : t.phase = .fresh) :
    ContinuesContext s t ∨ (s.phase ≠ .fresh ∧ t.carryLen = 0#5) := by
  rcases exec_cases h with ⟨dir, klen, ivlen, -, -, rfl⟩ | ⟨len, -, -, rfl⟩ | ⟨-, hf⟩ | ⟨-, rfl⟩
  · rcases openChecked_cases dir klen ivlen (s.din.take klen) ((s.din.drop klen).take ivlen)
      { s with din := s.din.drop (klen + ivlen) } with
      ⟨hp, he⟩ | ⟨hp, -, he⟩ | ⟨hp, -, -, he⟩ | ⟨hp, -, -, -, he⟩ | ⟨hp, -, -, -, he⟩
    all_goals rw [he] at ht ⊢
    · exact .inl (continuesContext_of_sameRegisters hp (sameRegisters_refl s))
    · exact absurd ht hp
    · exact absurd ht hp
    · exact absurd ht (by simpa using hp)
    · exact .inr ⟨hp, rfl⟩
  · rcases updateChecked_cases (s.din.take len) { s with din := s.din.drop len } with
      ⟨hp, e, -, he⟩ | ⟨hp, he⟩ <;> rw [he] at ht ⊢
    · exact absurd ht hp
    · exact .inl ⟨hp, _, { s with din := s.din.drop len }, sameRegisters_refl s,
        sameRegisters_refl _⟩
  · exact absurd ht (execFinish_phase_ne_fresh hf)
  · simp at ht

/-- A step that ends in Fresh continues the context there was or has opened an empty one. -/
theorem step_to_fresh {s t : State} (h : step s = .next t) (ht : t.phase = .fresh) :
    ContinuesContext s t ∨ (s.phase ≠ .fresh ∧ t.carryLen = 0#5) := by
  rcases step_cases s with ⟨-, he⟩ | ⟨-, -, he⟩ | ⟨_, rest, i, -, -, -, he⟩ | ⟨_, rest, _, -, -, -, he⟩
  · cases he.symm.trans h
    cases ht
  · cases he.symm.trans h
    exact .inl (continuesContext_of_sameRegisters ht (sameRegisters_refl s))
  · exact exec_to_fresh (s := { s with cmd := rest }) (he.symm.trans h) ht
  · cases he.symm.trans h
    exact .inl (continuesContext_of_sameRegisters ht (sameRegisters_refl s))

/-- The bounds of `carry_len` speak of the registers only. -/
theorem inv_of_sameRegisters {s t : State} (h : SameRegisters s t) (hs : s.Inv) : t.Inv := by
  obtain ⟨hp, hd, -, -, -, hl⟩ := h
  simpa only [State.Inv, hp, hd, hl] using hs

/-- A chunk leaves at most 15 bytes in CARRY in direction Encrypt, and at most 16 in direction Decrypt
(R135, R137). -/
theorem chunker_keeps_inv {s : State} (chunk : List Byte) (hp : s.phase = .fresh) (hs : s.Inv) :
    (chunker s.dir chunk s).2.Inv := by
  intro _
  have hb := hs hp
  rw [chunker_dir]
  cases hd : s.dir with
  | encrypt =>
    rw [hd] at hb
    obtain ⟨-, -, hlen, -⟩ := updateEnc_spec chunk s hb
    simp only [chunker, hlen]
    omega
  | decrypt =>
    rw [hd] at hb
    obtain ⟨-, -, hlen, -⟩ := updateDec_spec chunk s hb
    simp only [chunker, hlen]
    split <;> omega

/-- Settles O15: a step that ends in Fresh has run a chunk, which keeps the bounds, or opened an empty
context. -/
theorem stepKeepsCarryBounds : Obligations.StepKeepsCarryBounds := by
  intro s t hs h ht
  rcases step_to_fresh h ht with ⟨hp, chunk, u, hu, hc⟩ | ⟨-, hl⟩
  · exact inv_of_sameRegisters hc
      (chunker_keeps_inv chunk (hu.1.trans hp) (inv_of_sameRegisters hu hs)) ht
  · rw [hl]
    exact Nat.zero_le _

/-- Settles O20: a step from Fresh to Fresh has run a chunk, which writes neither KEY nor `dir`. -/
theorem keyAndDirectionAreFixed : Obligations.KeyAndDirectionAreFixed := by
  intro s t hp ht h
  rcases step_to_fresh h ht with ⟨-, chunk, u, ⟨-, hud, huk, -⟩, ⟨-, hd, hk, -⟩⟩ | ⟨hn, -⟩
  · exact ⟨by rw [hk, chunker_key, huk], by rw [hd, chunker_dir, hud]⟩
  · exact absurd hp hn

/-! ### Since OPEN (R29) -/

/-- An OPEN that ends in Fresh has set its direction, an empty CARRY and the IV in CHAIN (R117). -/
theorem open_to_fresh {dir : Dir} {s t : State} (hs : s.phase ≠ .fresh)
    (h : exec (.openCtx dir 32 16) s = .next t) (ht : t.phase = .fresh) :
    t.dir = dir ∧ t.carryLen = 0#5 ∧ t.chain.toList = (s.din.drop 32).take 16 := by
  obtain ⟨hlen, rfl⟩ := execOpen_eq_next.1 h
  rcases openChecked_by_status dir 32 16 (s.din.take 32) ((s.din.drop 32).take 16)
    { s with din := s.din.drop 48 } with ⟨-, u, hu, he⟩ | ⟨-, he⟩
  all_goals rw [he] at ht ⊢
  · rcases hu with rfl | rfl <;> exact absurd ht (by simpa using hs)
  · refine ⟨rfl, rfl, ?_⟩
    exact toList_bytesOf (by simp; omega)

/-- Settles O36: the UPDATEs are one chunk put into an empty CARRY, so the sequence of R135 and R137 is
the chunk itself. -/
theorem invariantsSinceOpen : Obligations.InvariantsSinceOpen := by
  intro dir s0 s t lens hs0 hopen hfresh hrun
  obtain ⟨rfl, hempty, hiv⟩ := open_to_fresh hs0 hopen hfresh
  have hlen := runUpdates_len lens s t hrun
  obtain ⟨r, hr⟩ := runUpdates_fresh lens s hfresh hlen
  cases hr.symm.trans hrun
  refine ⟨hiv, by simpa using hfresh, by simp, ?_⟩
  have hcarry : carryBytes s = [] := by simp [carryBytes, hempty]
  have hbytes : (s.din.take lens.sum).length = lens.sum := List.length_take_of_le hlen
  cases hd : s.dir with
  | encrypt =>
    obtain ⟨hout, -, hcl, hchain, -⟩ := updateEnc_spec (s.din.take lens.sum) s (by simp [hempty])
    simp only [hcarry, List.nil_append, hbytes] at hout hcl hchain
    refine ⟨hcl, ?_, congrArg _ hout, by rw [cbcEncrypt_length, blocksOf_length], hchain⟩
    exact hcl.trans_le (by omega)
  | decrypt =>
    obtain ⟨hout, -, hcl, hchain, -⟩ := updateDec_spec (s.din.take lens.sum) s (by simp [hempty])
    simp only [hcarry, List.nil_append, hbytes] at hout hcl hchain
    refine ⟨hcl, hcl.trans_le (by split <;> omega), ?_, congrArg _ hout, blocksOf_length _ _, hchain⟩
    dsimp only [chunker]
    rw [hcl]
    split <;> omega

/-! ### Void registers (R28)

Each operation takes states that differ at most in void registers to such states. -/

/-- All but the six registers is the same in both states. -/
abbrev SamePorts (s t : State) : Prop :=
  s.cmd = t.cmd ∧ s.din = t.din ∧ s.dout = t.dout ∧ s.rsp = t.rsp ∧ s.coreReqs = t.coreReqs
    ∧ s.core = t.core ∧ s.initAnswers = t.initAnswers ∧ s.resetReq = t.resetReq ∧ s.draws = t.draws

/-- Outside Fresh every register is void. -/
theorem sameButVoid_of_not_fresh {u v : State} (hu : u.phase ≠ .fresh) (hphase : u.phase = v.phase)
    (hports : SamePorts u v) : SameButVoid u v := by
  obtain ⟨hcmd, hdin, hdout, hrsp, hreqs, hcore, hans, hreset, hdraws⟩ := hports
  exact ⟨hphase, hcmd, hdin, hdout, hrsp, hreqs, hcore, hans, hreset, hdraws, fun hp => absurd hp hu⟩

theorem sameButVoid_refl (s : State) : SameButVoid s s := by simp [SameButVoid]

section
variable {s t : State} (h : SameButVoid s t)
include h

theorem SameButVoid.phase_eq : s.phase = t.phase := h.1

theorem SameButVoid.dir_eq (hp : s.phase = .fresh) : s.dir = t.dir := by simp_all [SameButVoid]

theorem SameButVoid.chain_eq (hp : s.phase = .fresh) : s.chain = t.chain := by simp_all [SameButVoid]

theorem SameButVoid.key_eq (hp : s.phase = .fresh) : s.key = t.key := by simp_all [SameButVoid]

theorem SameButVoid.carryLen_eq (hp : s.phase = .fresh) : s.carryLen = t.carryLen := by
  simp_all [SameButVoid]

theorem SameButVoid.carryBytes_eq (hp : s.phase = .fresh) : carryBytes s = carryBytes t := by
  simp_all [SameButVoid]

theorem SameButVoid.ports : SamePorts s t := by
  obtain ⟨-, hcmd, hdin, hdout, hrsp, hreqs, hcore, hans, hreset, hdraws, -⟩ := h
  exact ⟨hcmd, hdin, hdout, hrsp, hreqs, hcore, hans, hreset, hdraws⟩

/-- What an operation that writes no register has to keep: the ports alike. -/
theorem SameButVoid.of_sameRegisters {u v : State} (hu : SameRegisters s u) (hv : SameRegisters t v)
    (hports : SamePorts u v) : SameButVoid u v := by
  obtain ⟨hup, hud, huk, huc, hucar, hul⟩ := hu
  obtain ⟨hvp, hvd, hvk, hvc, hvcar, hvl⟩ := hv
  obtain ⟨hcmd, hdin, hdout, hrsp, hreqs, hcore, hans, hreset, hdraws⟩ := hports
  refine ⟨by rw [hup, hvp, h.phase_eq], hcmd, hdin, hdout, hrsp, hreqs, hcore, hans, hreset, hdraws,
    fun hp => ?_⟩
  have hs : s.phase = .fresh := hup.symm.trans hp
  have hbytes := h.carryBytes_eq hs
  simp only [carryBytes] at hbytes
  simp only [carryBytes, hud, hvd, huk, hvk, huc, hvc, hucar, hvcar, hul, hvl]
  exact ⟨h.dir_eq hs, h.key_eq hs, h.chain_eq hs, h.carryLen_eq hs, hbytes⟩

theorem SameButVoid.respond_congr (st : Status) (n : Nat) : SameButVoid (respond st n s) (respond st n t) :=
  h.of_sameRegisters (sameRegisters_refl s) (sameRegisters_refl t) (by simpa [SamePorts] using h.ports)

theorem SameButVoid.doutPut_congr (out : List Byte) : SameButVoid (doutPut out s) (doutPut out t) :=
  h.of_sameRegisters (sameRegisters_refl s) (sameRegisters_refl t) (by simpa [SamePorts] using h.ports)

theorem SameButVoid.complete_congr (out : List Byte) : SameButVoid (complete out s) (complete out t) :=
  (h.doutPut_congr out).respond_congr .ok out.length

theorem SameButVoid.raise_congr (e : Status) : SameButVoid (raise e s) (raise e t) := h.respond_congr e 0

theorem SameButVoid.illegalCommand_congr : SameButVoid (illegalCommand s) (illegalCommand t) := h.raise_congr _

theorem SameButVoid.finalize_congr : SameButVoid (finalize s) (finalize t) :=
  sameButVoid_of_not_fresh (by simp) rfl (by simpa [SamePorts] using h.ports)

theorem SameButVoid.resetEvent_congr : SameButVoid (resetEvent s) (resetEvent t) :=
  sameButVoid_of_not_fresh (show Phase.idle ≠ .fresh by decide) rfl (by simp [SamePorts, h.ports])

theorem SameButVoid.initAnswer_eq : initAnswer s = initAnswer t := by
  simp [initAnswer, h.ports]

theorem SameButVoid.askInit_congr : SameButVoid (askInit s) (askInit t) := by
  refine h.of_sameRegisters (by simp [SameRegisters]) (by simp [SameRegisters]) ?_
  have hdraws : (askInit s).draws = (askInit t).draws := by
    obtain ⟨-, -, -, -, -, -, hans, -, hdraws⟩ := h.ports
    unfold askInit
    rw [← hans]
    split <;> simp [hdraws]
  simp [SamePorts, hdraws, h.ports]

/-- A context just opened has the operands' key and IV, and no valid byte of CARRY (R117). -/
theorem SameButVoid.openContext_congr (dir : Dir) (kb iv : List Byte) :
    SameButVoid (openContext dir kb iv s) (openContext dir kb iv t) := by
  obtain ⟨hcmd, hdin, hdout, hrsp, hreqs, hcore, hans, hreset, hdraws⟩ := h.ports
  exact ⟨rfl, hcmd, hdin, hdout, hrsp, hreqs, hcore, hans, hreset, hdraws,
    fun _ => ⟨rfl, rfl, rfl, rfl, by simp [carryBytes]⟩⟩

/-- In a Fresh context a full CARRY has no void byte, so nothing is void. -/
theorem SameButVoid.eq_of_full (hp : s.phase = .fresh) (hl : 16 ≤ s.carryLen.toNat) : s = t := by
  have hbytes := h.carryBytes_eq hp
  simp only [carryBytes, ← h.carryLen_eq hp] at hbytes
  rw [List.take_of_length_le (by simpa using hl), List.take_of_length_le (by simpa using hl)] at hbytes
  have hcarry : s.carry = t.carry := Vector.toList_inj.1 hbytes
  cases s; cases t
  simp_all [SameButVoid]

theorem SameButVoid.carryPut_congr (b : Byte) (hp : s.phase = .fresh) :
    SameButVoid (carryPut b s) (carryPut b t) := by
  by_cases hl : s.carryLen.toNat ≤ 15
  · have hbytes : carryBytes (carryPut b s) = carryBytes (carryPut b t) := by
      rw [(carryBytes_carryPut b s hl).1, (carryBytes_carryPut b t (h.carryLen_eq hp ▸ hl)).1,
        h.carryBytes_eq hp]
    simp_all [SameButVoid]
  · cases h.eq_of_full hp (by omega)
    exact sameButVoid_refl _

theorem SameButVoid.cbcEncBlock_congr (p : Block) (hp : s.phase = .fresh) :
    (cbcEncBlock p s).1 = (cbcEncBlock p t).1 ∧
      SameButVoid (cbcEncBlock p s).2 (cbcEncBlock p t).2 := by
  obtain ⟨hcmd, hdin, hdout, hrsp, hreqs, hcore, hans, hreset, hdraws⟩ := h.ports
  have hout : (cbcEncBlock p s).1 = (cbcEncBlock p t).1 := by
    simp [hcore, h.key_eq hp, h.chain_eq hp]
  exact ⟨hout, h.phase_eq, hcmd, hdin, hdout, hrsp, by simp [hreqs, h.key_eq hp, h.chain_eq hp], hcore,
    hans, hreset, hdraws,
    fun _ => ⟨h.dir_eq hp, h.key_eq hp, hout, h.carryLen_eq hp, h.carryBytes_eq hp⟩⟩

/-- A byte that completes a block leaves no void byte, and any other is put in CARRY (R134). -/
theorem SameButVoid.encByte_congr (b : Byte) (hp : s.phase = .fresh) :
    (encByte b s).1 = (encByte b t).1 ∧ SameButVoid (encByte b s).2 (encByte b t).2 := by
  have hput := h.carryPut_congr b hp
  by_cases hfull : (carryPut b s).carryLen = 16#5
  · have heq := hput.eq_of_full hp (by rw [hfull]; decide)
    dsimp only [encByte]
    rw [heq]
    exact ⟨rfl, sameButVoid_refl _⟩
  · have hfull' := hput.carryLen_eq hp ▸ hfull
    simpa only [encByte, if_neg hfull, if_neg hfull', true_and] using hput

/-- A byte that arrives at a full CARRY finds no void byte, and any other is put in CARRY (R136). -/
theorem SameButVoid.decByte_congr (b : Byte) (hp : s.phase = .fresh) :
    (decByte b s).1 = (decByte b t).1 ∧ SameButVoid (decByte b s).2 (decByte b t).2 := by
  by_cases hfull : s.carryLen = 16#5
  · cases h.eq_of_full hp (by simp [hfull])
    exact ⟨rfl, sameButVoid_refl _⟩
  · have hfull' := h.carryLen_eq hp ▸ hfull
    simpa only [decByte, if_neg hfull, if_neg hfull', true_and] using h.carryPut_congr b hp

theorem SameButVoid.chunker_single_congr (d : Dir) (b : Byte) (hp : s.phase = .fresh) :
    (chunker d [b] s).1 = (chunker d [b] t).1 ∧
      SameButVoid (chunker d [b] s).2 (chunker d [b] t).2 := by
  cases d with
  | encrypt => simpa only [chunker, updateEnc, List.append_nil] using h.encByte_congr b hp
  | decrypt => simpa only [chunker, updateDec, List.append_nil] using h.decByte_congr b hp

end

/-- A chunk puts out the same bytes whatever the void bytes of CARRY are. -/
theorem SameButVoid.chunker_congr {s t : State} (h : SameButVoid s t) (d : Dir) (chunk : List Byte)
    (hp : s.phase = .fresh) :
    (chunker d chunk s).1 = (chunker d chunk t).1 ∧
      SameButVoid (chunker d chunk s).2 (chunker d chunk t).2 := by
  induction chunk generalizing s t with
  | nil => cases d <;> exact ⟨rfl, h⟩
  | cons b chunk ih =>
    obtain ⟨hout, hnext⟩ := h.chunker_single_congr d b hp
    obtain ⟨hout', hnext'⟩ := ih hnext (by simpa using hp)
    rw [← List.singleton_append, chunker_append, chunker_append]
    exact ⟨congrArg₂ _ hout hout', hnext'⟩

section
variable {s t : State} (h : SameButVoid s t)
include h

theorem SameButVoid.openChecked_congr (dir : Dir) (klen ivlen : Nat) (kb iv : List Byte) :
    SameButVoid (openChecked dir klen ivlen kb iv s) (openChecked dir klen ivlen kb iv t) := by
  unfold openChecked
  rw [← h.phase_eq, ← h.initAnswer_eq]
  split_ifs
  · exact h.raise_congr _
  · exact h.raise_congr _
  · exact h.raise_congr _
  · cases initAnswer s with
    | fail => exact h.askInit_congr.raise_congr _
    | ok => exact (h.askInit_congr.openContext_congr dir kb iv).complete_congr []

theorem SameButVoid.updateChecked_congr (chunk : List Byte) :
    SameButVoid (updateChecked chunk s) (updateChecked chunk t) := by
  have hp := h.phase_eq
  cases hs : s.phase with
  | idle => simpa only [updateChecked, ← hp, hs] using h.raise_congr _
  | finalized => simpa only [updateChecked, ← hp, hs] using h.raise_congr _
  | fresh =>
    obtain ⟨hout, hnext⟩ := h.chunker_congr s.dir chunk hs
    rw [updateChecked_fresh _ _ hs, updateChecked_fresh _ _ (hp.symm.trans hs), ← h.dir_eq hs, ← hout]
    exact hnext.complete_congr _

theorem SameButVoid.finishEnc_congr (hp : s.phase = .fresh) : SameButVoid (finishEnc s) (finishEnc t) := by
  obtain ⟨hout, hnext⟩ := h.cbcEncBlock_congr (pad (carryBytes s)) hp
  simp only [finishEnc, ← h.carryBytes_eq hp, ← hout]
  exact hnext.finalize_congr.complete_congr _

/-- The length check sees `carry_len` alone, and where it passes nothing is void (R155, R158). -/
theorem SameButVoid.finishDec_congr (hp : s.phase = .fresh) : SameButVoid (finishDec s) (finishDec t) := by
  by_cases hfull : s.carryLen = 16#5
  · cases h.eq_of_full hp (by simp [hfull])
    exact sameButVoid_refl _
  · have hfull' := h.carryLen_eq hp ▸ hfull
    simp only [finishDec, if_pos hfull, if_pos hfull']
    exact h.finalize_congr.raise_congr _

theorem SameButVoid.execFinish_congr : OutcomeSameButVoid (execFinish s) (execFinish t) := by
  have hp := h.phase_eq
  unfold execFinish
  cases hs : s.phase with
  | idle => simpa only [← hp, hs, OutcomeSameButVoid] using h.raise_congr _
  | finalized => simpa only [← hp, hs, OutcomeSameButVoid] using h.raise_congr _
  | fresh =>
    simp only [← hp, hs, ← h.dir_eq hs]
    cases s.dir with
    | encrypt => exact h.finishEnc_congr hs
    | decrypt => exact h.finishDec_congr hs

theorem SameButVoid.execAbandon_congr : OutcomeSameButVoid (execAbandon s) (execAbandon t) := by
  simp only [execAbandon, ← h.phase_eq, OutcomeSameButVoid]
  refine SameButVoid.complete_congr ?_ []
  refine sameButVoid_of_not_fresh (show Phase.idle ≠ .fresh by decide) rfl ?_
  split <;> simp [SamePorts, h.ports]

/-- Payload is taken from both states or from neither. -/
theorem SameButVoid.dinTake_congr (n : Nat) :
    (dinTake n s = none ∧ dinTake n t = none) ∨
    ∃ bytes s' t', dinTake n s = some (bytes, s') ∧ dinTake n t = some (bytes, t') ∧ SameButVoid s' t' := by
  obtain ⟨-, hd, -⟩ := h.ports
  by_cases hn : n ≤ s.din.length
  · refine .inr ⟨_, _, _, dinTake_eq_some.2 ⟨hn, rfl, rfl⟩, dinTake_eq_some.2 ⟨hd ▸ hn, ?_, rfl⟩, ?_⟩
    · rw [hd]
    · exact h.of_sameRegisters (sameRegisters_refl s) (sameRegisters_refl t) (by simp [SamePorts, h.ports])
  · exact .inl ⟨dinTake_eq_none.2 (by omega), dinTake_eq_none.2 (by rw [← hd]; omega)⟩

theorem SameButVoid.execOpen_congr (dir : Dir) (klen ivlen : Nat) :
    OutcomeSameButVoid (execOpen dir klen ivlen s) (execOpen dir klen ivlen t) := by
  unfold execOpen
  rcases h.dinTake_congr klen with ⟨hs, ht⟩ | ⟨kb, s1, t1, hs, ht, h1⟩ <;> simp only [hs, ht]
  · rfl
  · rcases h1.dinTake_congr ivlen with ⟨hs, ht⟩ | ⟨iv, s2, t2, hs, ht, h2⟩ <;> simp only [hs, ht]
    · rfl
    · exact h2.openChecked_congr dir klen ivlen kb iv

theorem SameButVoid.execUpdate_congr (len : Nat) :
    OutcomeSameButVoid (execUpdate len s) (execUpdate len t) := by
  unfold execUpdate
  rcases h.dinTake_congr len with ⟨hs, ht⟩ | ⟨chunk, s1, t1, hs, ht, h1⟩ <;> simp only [hs, ht]
  · rfl
  · exact h1.updateChecked_congr chunk

theorem SameButVoid.exec_congr (i : Instr) : OutcomeSameButVoid (exec i s) (exec i t) := by
  cases i with
  | openCtx dir klen ivlen => exact h.execOpen_congr dir klen ivlen
  | update len => exact h.execUpdate_congr len
  | finish => exact h.execFinish_congr
  | abandon => exact h.execAbandon_congr

/-- The oldest descriptor is taken from both states or from neither. -/
theorem SameButVoid.takeDesc_congr :
    (takeDesc s = none ∧ takeDesc t = none) ∨
    ∃ d s' t', takeDesc s = some (d, s') ∧ takeDesc t = some (d, t') ∧ SameButVoid s' t' := by
  obtain ⟨hc, -⟩ := h.ports
  unfold takeDesc
  rw [← hc]
  cases s.cmd with
  | nil => exact .inl ⟨rfl, rfl⟩
  | cons d rest => exact .inr ⟨d, _, _, rfl, rfl, h.of_sameRegisters (sameRegisters_refl s)
      (sameRegisters_refl t) (by simp [SamePorts, h.ports])⟩

end

/-- Settles O19: the step takes the same branch in both states, and each branch keeps them alike. -/
theorem voidRegistersCannotBeObserved : Obligations.VoidRegistersCannotBeObserved := by
  intro s t h
  obtain ⟨-, -, -, -, -, -, -, hr, -⟩ := h.ports
  unfold step
  rw [← hr]
  split_ifs
  · exact h.resetEvent_congr
  · rcases h.takeDesc_congr with ⟨hs, ht⟩ | ⟨d, s1, t1, hs, ht, h1⟩ <;> simp only [hs, ht]
    · exact h
    · cases decode d with
      | ok i => exact h1.exec_congr i
      | error e => exact h1.illegalCommand_congr

end Sys2Proof.Machine

/-! SUPPORT. The port rules of 20_memory.md: a descriptor's byte form and the descriptor determine each
other (R58, R59), and DIN running short is all that stops a command (R53, R235). -/

namespace Sys2Proof.Machine

open Sys2Proof

/-! ### The byte form of a descriptor (R58) -/

/-- Each byte put into a descriptor is the byte at its place. -/
theorem descToBytes_append (b3 b2 b1 b0 : Byte) :
    descToBytes (b3 ++ b2 ++ b1 ++ b0) = [b3, b2, b1, b0] := by
  have := b3.isLt; have := b2.isLt; have := b1.isLt; have := b0.isLt
  simp only [descToBytes, List.cons.injEq, and_true, extract_eq_iff, toNat_append_add]
  omega

/-- The bytes of a descriptor, put together again, are the descriptor. -/
theorem descOfBytes_descToBytes (d : Desc) : descOfBytes (descToBytes d) = some d := by
  refine congrArg some (BitVec.eq_of_toNat_eq ?_)
  have := d.isLt
  simp only [toNat_append_add, extract_toNat]
  omega

/-- Only four bytes are a descriptor, and they are its bytes (R59). -/
theorem eq_descToBytes_of_descOfBytes_eq_some {l : List Byte} {d : Desc} (h : descOfBytes l = some d) :
    l = descToBytes d := by
  unfold descOfBytes at h
  split at h <;> cases h
  exact (descToBytes_append ..).symm

/-- Settles O6: taking a descriptor apart and putting it together undo each other. -/
theorem descriptorBytesReadBack : Obligations.DescriptorBytesReadBack := fun d =>
  ⟨descOfBytes_descToBytes d, rfl, fun _ => eq_descToBytes_of_descOfBytes_eq_some⟩

/-! ### Missing payload (R53, R235) -/

section
variable {s : State}

/-- OPEN stops at the key bytes or, where those are there, at the IV bytes (R113). -/
theorem execOpen_starved (dir : Dir) {klen ivlen : Nat} (h : s.din.length < klen + ivlen) :
    execOpen dir klen ivlen s = .fault .starvedPayload := by
  by_cases hk : klen ≤ s.din.length
  · have hiv : dinTake ivlen { s with din := s.din.drop klen } = none :=
      dinTake_eq_none.2 (by simp; omega)
    simp only [execOpen, dinTake_eq_some.2 ⟨hk, rfl, rfl⟩, hiv]
  · simp only [execOpen, dinTake_eq_none.2 (Nat.lt_of_not_le hk)]

theorem execUpdate_starved {len : Nat} (h : s.din.length < len) :
    execUpdate len s = .fault .starvedPayload := by
  simp only [execUpdate, dinTake_eq_none.2 h]

/-- FINISH and ABANDON announce no payload, so only OPEN and UPDATE can lack it (R87). -/
theorem exec_starved {i : Instr} (h : s.din.length < payloadLen i) :
    exec i s = .fault .starvedPayload := by
  cases i with
  | openCtx dir klen ivlen => exact execOpen_starved dir h
  | update len => exact execUpdate_starved h
  | finish => exact absurd h (Nat.not_lt_zero _)
  | abandon => exact absurd h (Nat.not_lt_zero _)

theorem exec_completes {i : Instr} (h : payloadLen i ≤ s.din.length) : ∃ t, exec i s = .next t := by
  cases i with
  | openCtx dir klen ivlen => exact ⟨_, execOpen_eq_next.2 ⟨h, rfl⟩⟩
  | update len => exact ⟨_, execUpdate_eq_next.2 ⟨h, rfl⟩⟩
  | finish => exact ⟨_, rfl⟩
  | abandon => exact ⟨_, rfl⟩

end

/-- A pulled reset line is served whatever waits on the ports (R221, R235). -/
theorem step_hostReset (s : State) : step (hostReset s) = .next (resetEvent (hostReset s)) := rfl

/-- Settles O12: a command lacks its payload or has it, and the reset step asks for none. -/
theorem commandStopsOnlyWhenStarved : Obligations.CommandStopsOnlyWhenStarved := fun _ s =>
  ⟨fun hshort => ⟨exec_starved hshort, _, step_hostReset s⟩, exec_completes⟩

end Sys2Proof.Machine

/-! SUPPORT. The encoding rules of 30_encoding.md: decoding and encoding undo each other (R82 to R86), the
rows of the opcode table (R95), and what a command takes and answers (R87, R89 to R91). -/

namespace Sys2Proof.Machine

open Sys2Proof

/-! ### A command and its descriptor (R82, R85, R86, R95) -/

theorem dirOfBit_bitOfDir (dir : Dir) : dirOfBit (bitOfDir dir) = dir := by
  cases dir <;> rfl

theorem bitOfDir_dirOfBit (b : BitVec 1) : bitOfDir (dirOfBit b) = b := by
  revert b
  decide

/-- The decoder row by row: the bits above the operands are the row's, and the operands are the rest. -/
theorem decode_eq_ok_iff (d : Desc) (i : Instr) : decode d = .ok i ↔
    (d.toNat / 2 ^ 17 = 2 ^ 7 ∧
      i = .openCtx (dirOfBit (d.extractLsb' 16 1)) (d.toNat / 2 ^ 8 % 2 ^ 8) (d.toNat % 2 ^ 8)) ∨
    (d.toNat / 2 ^ 16 = 2 * 2 ^ 8 ∧ i = .update (d.toNat % 2 ^ 16)) ∨
    (d.toNat = 3 * 2 ^ 24 ∧ i = .finish) ∨
    (d.toNat = 4 * 2 ^ 24 ∧ i = .abandon) := by
  rw [decode_nat, ← dirOfBit_extract]
  constructor
  · intro h
    split_ifs at h <;> cases h
    · exact .inl ⟨by omega, rfl⟩
    · exact .inr (.inl ⟨by omega, rfl⟩)
    · exact .inr (.inr (.inl ⟨by omega, rfl⟩))
    · exact .inr (.inr (.inr ⟨by omega, rfl⟩))
  · rintro (⟨hrow, rfl⟩ | ⟨hrow, rfl⟩ | ⟨hrow, rfl⟩ | ⟨hrow, rfl⟩)
    · rw [if_pos (by omega), if_pos (by omega)]
    · rw [if_neg (by omega), if_pos (by omega), if_pos (by omega)]
    · simp [hrow]
    · simp [hrow]

/-- Settles O1: the number a command is encoded as lies in its row, and each operand is read back. -/
theorem decodeInvertsEncode : Obligations.DecodeInvertsEncode := by
  intro i hwf
  rw [decode_eq_ok_iff]
  cases i with
  | openCtx dir klen ivlen =>
    obtain ⟨hk, hiv⟩ := hwf
    have hbit := (bitOfDir dir).isLt
    have hdir : (encode (.openCtx dir klen ivlen)).extractLsb' 16 1 = bitOfDir dir := by
      rw [extract_eq_iff, encode_openCtx_toNat]
      omega
    rw [hdir, dirOfBit_bitOfDir, encode_openCtx_toNat]
    exact .inl ⟨by omega, congrArg₂ _ (by omega) (by omega)⟩
  | update len =>
    have hlen : len ≤ 65535 := hwf
    rw [encode_update_toNat]
    exact .inr (.inl ⟨by omega, congrArg _ (by omega)⟩)
  | finish => exact .inr (.inr (.inl ⟨rfl, rfl⟩))
  | abandon => exact .inr (.inr (.inr ⟨rfl, rfl⟩))

/-- Settles O2: the row's bits and the operands' fields together are the whole descriptor. -/
theorem encodeInvertsDecode : Obligations.EncodeInvertsDecode := by
  intro d i h
  refine ⟨wellFormed_of_decode_eq_ok h, BitVec.eq_of_toNat_eq ?_⟩
  rcases (decode_eq_ok_iff d i).1 h with ⟨hrow, rfl⟩ | ⟨hrow, rfl⟩ | ⟨hrow, rfl⟩ | ⟨hrow, rfl⟩
  · rw [encode_openCtx_toNat, bitOfDir_dirOfBit, extract_toNat]
    omega
  · rw [encode_update_toNat]
    omega
  · exact hrow.symm
  · exact hrow.symm

/-! ### The rows of the opcode table (R95) -/

/-- A mask of all bits from `k` up keeps just the quotient by `2 ^ k`. -/
theorem and_highMask_eq_iff (d c : Desc) (k : Nat) :
    d &&& (BitVec.allOnes 32 <<< k) = c ↔ d.toNat / 2 ^ k * 2 ^ k = c.toNat := by
  have hmask : d &&& (BitVec.allOnes 32 <<< k) = (d >>> k) <<< k := by
    ext i hi
    by_cases hik : i < k
    · simp [hik]
    · simp [hik, -BitVec.reduceAllOnes, Nat.add_sub_cancel' (Nat.le_of_not_lt hik), hi]
  have hlt := d.isLt
  have hle := Nat.div_mul_le_self d.toNat (2 ^ k)
  rw [hmask, ← BitVec.toNat_inj, BitVec.toNat_shiftLeft, BitVec.toNat_ushiftRight,
    Nat.shiftLeft_eq, Nat.shiftRight_eq_div_pow, Nat.mod_eq_of_lt (by omega)]

/-- The row of OPEN applies (R82). -/
theorem openRow_iff (d : Desc) : d &&& 0xFFFE0000#32 = 0x01000000#32 ↔ d.toNat / 2 ^ 17 = 2 ^ 7 := by
  refine (and_highMask_eq_iff d 0x01000000#32 17).trans ?_
  simp only [BitVec.toNat_ofNat]
  omega

/-- The row of UPDATE applies (R85). -/
theorem updateRow_iff (d : Desc) :
    d &&& 0xFFFF0000#32 = 0x02000000#32 ↔ d.toNat / 2 ^ 16 = 2 * 2 ^ 8 := by
  refine (and_highMask_eq_iff d 0x02000000#32 16).trans ?_
  simp only [BitVec.toNat_ofNat]
  omega

/-- The row of a command without operands is one word (R86). -/
theorem wordRow_iff (d c : Desc) : d &&& 0xFFFFFFFF#32 = c ↔ d = c := by
  rw [show d &&& 0xFFFFFFFF#32 = d from BitVec.and_allOnes]

/-- The decoder by the masks of the table (R95). -/
theorem decode_eq_ok_iff_masks (d : Desc) (i : Instr) : decode d = .ok i ↔
    (d &&& 0xFFFE0000#32 = 0x01000000#32 ∧
      i = .openCtx (if d.toNat / 2 ^ 16 % 2 = 0 then .encrypt else .decrypt)
        (d.toNat / 2 ^ 8 % 2 ^ 8) (d.toNat % 2 ^ 8)) ∨
    (d &&& 0xFFFF0000#32 = 0x02000000#32 ∧ i = .update (d.toNat % 2 ^ 16)) ∨
    (d = 0x03000000#32 ∧ i = .finish) ∨
    (d = 0x04000000#32 ∧ i = .abandon) := by
  rw [decode_eq_ok_iff, openRow_iff, updateRow_iff, dirOfBit_extract, ← BitVec.toNat_inj,
    ← BitVec.toNat_inj]
  rfl

/-- A row that applies has the descriptor's opcode byte, for every mask covers that byte. -/
theorem opcOf_eq_of_rowApplies {row : Desc × Desc} {d : Desc} (hmem : row ∈ tableRows)
    (h : rowApplies row d = true) : opcOf row.2 = opcOf d := by
  have hmask : opcOf row.1 = 0xFF#8 := by fin_cases hmem <;> rfl
  calc opcOf row.2 = opcOf (d &&& row.1) := by rw [of_decide_eq_true h]
    _ = opcOf d &&& opcOf row.1 := BitVec.extractLsb'_and
    _ = opcOf d := by rw [hmask]; exact BitVec.and_allOnes

/-- The rows have different opcode bytes, so at most one applies. -/
theorem rows_disjoint (d : Desc) : (tableRows.filter fun row => rowApplies row d).length ≤ 1 := by
  have hnodup : (tableRows.map fun row => opcOf row.2).Nodup := by decide
  calc (tableRows.filter fun row => rowApplies row d).length
      = tableRows.countP fun row => rowApplies row d := List.countP_eq_length_filter.symm
    _ ≤ tableRows.countP ((· == opcOf d) ∘ fun row => opcOf row.2) :=
        List.countP_mono_left fun row hmem h => beq_iff_eq.2 (opcOf_eq_of_rowApplies hmem h)
    _ = (tableRows.map fun row => opcOf row.2).count (opcOf d) := List.countP_map.symm
    _ ≤ 1 := List.nodup_iff_count_le_one.1 hnodup _

/-- What no row matches is illegal, and nothing else is. -/
theorem decode_error_iff_no_row (d : Desc) :
    (∃ e, decode d = .error e) ↔ ∀ row ∈ tableRows, rowApplies row d = false := by
  have hillegal : (∃ e, decode d = .error e) ↔ ∀ i, decode d ≠ .ok i := by
    cases decode d <;> simp
  rw [hillegal]
  simp only [ne_eq, decode_eq_ok_iff_masks, tableRows, rowOf, rowApplies, List.forall_mem_cons,
    List.not_mem_nil, wordRow_iff]
  simp [not_or, forall_and]

/-- Settles O3: the decoder by its masks, the rows' opcode bytes, and the rows as all that is legal. -/
theorem decodeReadsTableRows : Obligations.DecodeReadsTableRows := fun d =>
  ⟨decode_eq_ok_iff_masks d, rows_disjoint d, decode_error_iff_no_row d⟩

/-! ### Responses (R90, R92, R96) -/

/-- Settles O7: a code names its status, so two statuses with one code are one. -/
theorem responseFieldsReadBack : Obligations.ResponseFieldsReadBack := by
  refine ⟨fun st n hn => ⟨rspStatus_response st n, rspOlen_response st hn⟩, fun st st' h => ?_,
    statusOfCode_statusCode⟩
  exact Option.some.inj
    ((statusOfCode_statusCode st).symm.trans (h ▸ statusOfCode_statusCode st'))

/-- Settles O5: eighteen closed words. -/
theorem workedEncodings : Obligations.WorkedEncodings := by
  unfold Obligations.WorkedEncodings
  decide

/-! ### What a command takes and answers (R87, R89 to R91) -/

/-- From `s` to `t` one response was given, of this status and of OLEN for these output bytes, none of
which a failure has (R89, R90); no payload was taken. -/
structure Answers (s t : State) (st : Status) (out : List Byte) : Prop where
  din : t.din = s.din
  rsp : t.rsp = s.rsp ++ [response st out.length]
  dout : t.dout = s.dout ++ out
  failed : st ≠ .ok → out = []

section
variable {s u : State} (hdin : u.din = s.din) (hrsp : u.rsp = s.rsp) (hdout : u.dout = s.dout)
include hdin hrsp hdout

theorem raise_answers (e : Status) : Answers s (raise e u) e [] :=
  ⟨hdin, by simp [hrsp], by simp [hdout], fun _ => rfl⟩

theorem complete_answers (out : List Byte) : Answers s (complete out u) .ok out :=
  ⟨hdin, by simp [hrsp], by simp [hdout], fun h => absurd rfl h⟩

end

theorem openChecked_answers (dir : Dir) (klen ivlen : Nat) (kb iv : List Byte) (s : State) :
    ∃ st, Answers s (openChecked dir klen ivlen kb iv s) st [] := by
  rcases openChecked_by_status dir klen ivlen kb iv s with ⟨-, u, rfl | rfl, he⟩ | ⟨-, he⟩ <;> rw [he]
  · exact ⟨_, raise_answers rfl rfl rfl _⟩
  · exact ⟨_, raise_answers (by simp) (by simp) (by simp) _⟩
  · exact ⟨_, complete_answers (by simp) (by simp) (by simp) _⟩

/-- A chunk puts out whole blocks of at most 15 bytes that waited in CARRY and its own: in direction
Decrypt 16 may wait, but one byte is always kept back (R135, R137). -/
theorem chunker_length_le {s : State} (chunk : List Byte) (hp : s.phase = .fresh) (hs : s.Inv) :
    (chunker s.dir chunk s).1.length ≤ 16 * ((15 + chunk.length) / 16) := by
  have hb := hs hp
  cases hd : s.dir with
  | encrypt =>
    have hb : s.carryLen.toNat ≤ 15 := by simpa only [hd] using hb
    obtain ⟨hout, -⟩ := updateEnc_spec chunk s hb
    have hcarry := carryBytes_len_le s (Nat.le_succ_of_le hb)
    simp only [chunker, hout, bytesOfBlocks_length, cbcEncrypt_length, blocksOf_length,
      List.length_append, hcarry]
    omega
  | decrypt =>
    have hb : s.carryLen.toNat ≤ 16 := by simpa only [hd] using hb
    obtain ⟨hout, -⟩ := updateDec_spec chunk s hb
    have hcarry := carryBytes_len_le s hb
    simp only [chunker, hout, bytesOfBlocks_length, cbcDecrypt_length, blocksOf_length,
      List.length_append, hcarry]
    omega

theorem updateChecked_answers (chunk : List Byte) (s : State) :
    ∃ st out, Answers s (updateChecked chunk s) st out ∧
      (s.Inv → out.length ≤ 16 * ((15 + chunk.length) / 16)) := by
  rcases updateChecked_cases chunk s with ⟨-, e, -, he⟩ | ⟨hp, he⟩ <;> rw [he]
  · exact ⟨e, [], raise_answers rfl rfl rfl e, fun _ => Nat.zero_le _⟩
  · have hframe := chunker_frame s.dir chunk s
    exact ⟨.ok, _, complete_answers (by rw [hframe]) (by rw [hframe]) (by rw [hframe]) _,
      chunker_length_le chunk hp⟩

/-- What is left of a block without its padding is no longer than the block (R156). -/
theorem unpad_length_le {x : Block} {v : List Byte} (h : unpad x = some v) : v.length ≤ 16 := by
  simp only [unpad] at h
  split_ifs at h
  cases h
  simp

/-- FINISH puts out at most one block (R152, R155). -/
theorem execFinish_answers {s t : State} (h : execFinish s = .next t) :
    ∃ st out, Answers s t st out ∧ out.length ≤ 16 := by
  rcases execFinish_cases s with ⟨-, he⟩ | ⟨-, he⟩ | ⟨-, -, he⟩ | ⟨-, -, he⟩
  all_goals cases he.symm.trans h
  · exact ⟨.noContext, [], raise_answers rfl rfl rfl _, Nat.zero_le _⟩
  · exact ⟨.contextFinalized, [], raise_answers rfl rfl rfl _, Nat.zero_le _⟩
  · exact ⟨.ok, _, complete_answers (by rfl) (by rfl) (by rfl) _, by simp⟩
  · rcases finishDec_cases s with ⟨-, hd⟩ | ⟨-, -, hd⟩ | ⟨v, -, hv, hd⟩ <;> rw [hd]
    · exact ⟨.malformedStreamLength, [], raise_answers (by rfl) (by rfl) (by rfl) _, Nat.zero_le _⟩
    · exact ⟨.invalidPadding, [], raise_answers (by rfl) (by rfl) (by rfl) _, Nat.zero_le _⟩
    · exact ⟨.ok, v, complete_answers (by rfl) (by rfl) (by rfl) v, unpad_length_le hv⟩

/-- A command takes its payload from the front of DIN and answers once; one that has a descriptor puts
out at most 65536 bytes from a state within the carry bounds (R87, R89 to R91). -/
theorem exec_answers {i : Instr} {s t : State} (h : exec i s = .next t) :
    ∃ st out, Answers { s with din := s.din.drop (payloadLen i) } t st out ∧
      (s.Inv → i.wellFormed → out.length ≤ 65536) := by
  rcases exec_cases h with ⟨dir, klen, ivlen, rfl, -, rfl⟩ | ⟨len, rfl, hlen, rfl⟩ | ⟨rfl, hf⟩ | ⟨rfl, rfl⟩
  · obtain ⟨st, ha⟩ := openChecked_answers dir klen ivlen (s.din.take klen)
      ((s.din.drop klen).take ivlen) { s with din := s.din.drop (klen + ivlen) }
    exact ⟨st, [], ha, fun _ _ => Nat.zero_le _⟩
  · obtain ⟨st, out, ha, hout⟩ := updateChecked_answers (s.din.take len) { s with din := s.din.drop len }
    refine ⟨st, out, ha, fun hs hwf => ?_⟩
    have hle := hout hs
    have hmax : len ≤ 65535 := hwf
    rw [List.length_take_of_le hlen] at hle
    omega
  · obtain ⟨st, out, ha, hout⟩ := execFinish_answers hf
    exact ⟨st, out, ha, fun _ _ => by omega⟩
  · refine ⟨.ok, [], complete_answers ?_ ?_ ?_ [], fun _ _ => Nat.zero_le _⟩
    all_goals dsimp only; split <;> rfl

theorem step_illegal {s : State} {d : Desc} {rest : List Desc} {e : DecodeError}
    (hreset : s.resetReq = false) (hcmd : s.cmd = d :: rest) (hd : decode d = .error e) :
    step s = .next (illegalCommand { s with cmd := rest }) := by
  simp [step, takeDesc, hreset, hcmd, hd]

/-- Settles O13: each command answers from the state with its payload taken, and an illegal descriptor
from the state as it was. -/
theorem payloadTakenWhateverTheStatus : Obligations.PayloadTakenWhateverTheStatus := by
  constructor
  · intro i s t h
    obtain ⟨st, out, ha, -⟩ := exec_answers h
    exact ⟨ha.din, by cases i <;> rfl⟩
  · rintro s t d rest hreset hcmd ⟨e, hd⟩ h
    cases (step_illegal hreset hcmd hd).symm.trans h
    rfl

/-- Settles O14: a legal descriptor's command answers once and an illegal one is answered by
IllegalCommand; 65536 output bytes fit OLEN, so it reads back. -/
theorem oneResponsePerCommand : Obligations.OneResponsePerCommand := by
  intro s t d rest hs hreset hcmd h
  cases hd : decode d with
  | ok i =>
    obtain ⟨st, out, ha, hout⟩ := exec_answers ((step_eq_exec hreset hcmd hd).symm.trans h)
    have hle := hout hs (wellFormed_of_decode_eq_ok hd)
    exact ⟨st, out, ha.rsp, ha.dout, rspStatus_response st _, rspOlen_response st (by omega), hle,
      ha.failed⟩
  | error e =>
    cases (step_illegal hreset hcmd hd).symm.trans h
    exact ⟨.illegalCommand, [], rfl, by simp, rfl, rfl, Nat.zero_le _, fun _ => rfl⟩

end Sys2Proof.Machine

/-! SUPPORT. The life-cycle rules of 40_open_abandon.md: OPEN and its checks (R113 to R119), ABANDON
(R120), release (R121), and the table of what every command answers in every phase (R111). -/

namespace Sys2Proof.Machine

open Sys2Proof

/-! ### OPEN outside Fresh, one lemma for each way its checks end (R118) -/

/-- The answer of the core does not depend on DIN (R116). -/
theorem initAnswer_din (s : State) (din : List Byte) : initAnswer { s with din := din } = initAnswer s := rfl

section
variable {klen ivlen : Nat} {s : State} (dir : Dir) (hp : s.phase ≠ .fresh)
include hp

theorem exec_open_of_klen_ne (hk : klen ≠ 32) (hlen : klen + ivlen ≤ s.din.length) :
    exec (.openCtx dir klen ivlen) s =
      .next (raise .invalidKeyLength { s with din := s.din.drop (klen + ivlen) }) :=
  execOpen_eq_next.2 ⟨hlen, by simp [openChecked, hp, hk]⟩

theorem exec_open_of_ivlen_ne (hiv : ivlen ≠ 16) (hlen : 32 + ivlen ≤ s.din.length) :
    exec (.openCtx dir 32 ivlen) s =
      .next (raise .invalidIvLength { s with din := s.din.drop (32 + ivlen) }) :=
  execOpen_eq_next.2 ⟨hlen, by simp [openChecked, hp, hiv]⟩

theorem exec_open_of_init_fail (ha : initAnswer s = .fail) (hlen : 48 ≤ s.din.length) :
    exec (.openCtx dir 32 16) s =
      .next (raise .cipherInitFailure (askInit { s with din := s.din.drop 48 })) :=
  execOpen_eq_next.2 ⟨hlen, by simp [openChecked, hp, initAnswer_din, ha]⟩

theorem exec_open_of_init_ok (ha : initAnswer s = .ok) (hlen : 48 ≤ s.din.length) :
    exec (.openCtx dir 32 16) s =
      .next (complete [] (openContext dir (s.din.take 32) ((s.din.drop 32).take 16)
        (askInit { s with din := s.din.drop 48 }))) :=
  execOpen_eq_next.2 ⟨hlen, by simp [openChecked, hp, initAnswer_din, ha]⟩

end

/-- The one core request of OPEN is the init request, sent when the three earlier checks pass (R119). -/
theorem openChecked_coreReqs (dir : Dir) (klen ivlen : Nat) (kb iv : List Byte) (s : State) :
    (openChecked dir klen ivlen kb iv s).coreReqs =
      s.coreReqs ++ if s.phase ≠ .fresh ∧ klen = 32 ∧ ivlen = 16 then [.init] else [] := by
  rcases openChecked_cases dir klen ivlen kb iv s with
    ⟨hp, he⟩ | ⟨hp, hk, he⟩ | ⟨hp, hk, hiv, he⟩ | ⟨hp, hk, hiv, -, he⟩ | ⟨hp, hk, hiv, -, he⟩ <;> rw [he]
  · simp [hp]
  · simp [hk]
  · simp [hiv]
  · simp [hp, hk, hiv]
  · simp [hp, hk, hiv]

/-- Settles O28: OPEN raises the status of its first failing check or opens the context. -/
theorem openChecksInOrder : Obligations.OpenChecksInOrder := by
  intro dir klen ivlen s hlen
  refine ⟨_, execOpen_eq_next.2 ⟨hlen, rfl⟩, ?_⟩
  rw [openChecked_coreReqs, ← openStatus_din klen ivlen s (s.din.drop (klen + ivlen))]
  rcases openChecked_by_status dir klen ivlen (s.din.take klen) ((s.din.drop klen).take ivlen)
    { s with din := s.din.drop (klen + ivlen) } with ⟨hst, u, rfl | rfl, he⟩ | ⟨hst, he⟩ <;> rw [he]
  · simp [SameRegisters]
  · simp [SameRegisters]
  · simp [hst]

/-- Settles O25: the key length is the first check outside Fresh. -/
theorem openRejectsKeyLength : Obligations.OpenRejectsKeyLength := fun dir _ _ _ hp hk hlen =>
  exec_open_of_klen_ne dir hp hk hlen

/-- Settles O26: the IV length is checked only where the key length is right. -/
theorem openRejectsIvLength : Obligations.OpenRejectsIvLength := by
  intro dir klen ivlen s hp hiv hlen
  by_cases hk : klen = 32
  · subst hk
    exact exec_open_of_ivlen_ne dir hp hiv hlen
  · rw [if_neg hk]
    exact exec_open_of_klen_ne dir hp hk hlen

/-- Settles O27: the queued answer decides between the context opened and CipherInitFailure. -/
theorem openFollowsTheInitAnswer : Obligations.OpenFollowsTheInitAnswer := by
  intro dir s a later hp hlen hq
  have ha : initAnswer s = a := by simp only [initAnswer, hq]
  cases a with
  | ok =>
    refine ⟨_, exec_open_of_init_ok dir hp ha hlen, ?_⟩
    simp [hq, response, statusCode]
  | fail =>
    refine ⟨_, exec_open_of_init_fail dir hp ha hlen, ?_⟩
    simp [hq, SameRegisters, response, statusCode]

/-- Settles O23: the key bytes are the first 32 bytes on DIN and the IV bytes the next 16. -/
theorem openLoadsContext : Obligations.OpenLoadsContext := by
  intro dir kbytes ivbytes rest s hp hk hiv hdin ha
  have hkey : s.din.take 32 = kbytes := by simp [hdin, ← hk]
  have hivs : (s.din.drop 32).take 16 = ivbytes := by simp [hdin, ← hk, ← hiv]
  have hrest : s.din.drop 48 = rest := hdin ▸ List.drop_left' (by simp [hk, hiv])
  refine ⟨_, exec_open_of_init_ok dir hp ha (by simp [hdin, hk, hiv]; omega), ?_⟩
  simp [hkey, hivs, hrest, toList_bytesOf hk, toList_bytesOf hiv, response, statusCode]

/-! ### ABANDON (R120) -/

/-- Settles O30: a Fresh context is released, and outside Fresh only `phase` and the response are
written. -/
theorem abandonAlwaysEndsIdle : Obligations.AbandonAlwaysEndsIdle := by
  intro s
  refine ⟨_, rfl, ?_⟩
  cases hp : s.phase with
  | fresh => simp [Released, response, statusCode]
  | idle => simp [SameButVoid, response, statusCode]
  | finalized => simp [response, statusCode]

/-! ### The end of a context (R121) -/

/-- FINISH on a Fresh context releases it, whatever it answers (R157). -/
theorem execFinish_released {s t : State} (hp : s.phase = .fresh) (h : execFinish s = .next t) :
    Released t := by
  rcases execFinish_cases s with ⟨hn, -⟩ | ⟨hn, -⟩ | ⟨-, -, he⟩ | ⟨-, -, he⟩
  · simp [hp] at hn
  · simp [hp] at hn
  · cases he.symm.trans h
    exact ⟨rfl, rfl, rfl⟩
  · cases he.symm.trans h
    rcases finishDec_cases s with ⟨-, hd⟩ | ⟨-, -, hd⟩ | ⟨v, -, -, hd⟩ <;> rw [hd] <;>
      exact ⟨rfl, rfl, rfl⟩

theorem exec_open_phase_of_fresh {dir : Dir} {klen ivlen : Nat} {s t : State} (hp : s.phase = .fresh)
    (h : exec (.openCtx dir klen ivlen) s = .next t) : t.phase = .fresh := by
  obtain ⟨-, rfl⟩ := execOpen_eq_next.1 h
  simp [openChecked, hp]

theorem exec_update_phase_of_fresh {len : Nat} {s t : State} (hp : s.phase = .fresh)
    (h : exec (.update len) s = .next t) : t.phase = .fresh := by
  obtain ⟨-, rfl⟩ := execUpdate_eq_next.1 h
  simp [updateChecked_fresh, hp]

/-- Settles O21: OPEN and UPDATE stay in Fresh, and FINISH and ABANDON leave it by a release. -/
theorem leavingFreshReleases : Obligations.LeavingFreshReleases := by
  intro i s t hp h
  cases i with
  | openCtx dir klen ivlen => simp [exec_open_phase_of_fresh hp h]
  | update len => simp [exec_update_phase_of_fresh hp h]
  | finish => simpa [execFinish_phase_ne_fresh h] using execFinish_released hp h
  | abandon =>
    cases h
    simp [hp, Released]

/-! ### The life-cycle table (R111) -/

/-- From `s` to `t` one response was given, its status and the phase after it stand in the command's
cell of the table, and a failure that keeps the phase keeps the registers. -/
def AnswersInTable (i : Instr) (s t : State) : Prop :=
  ∃ st n, t.rsp = s.rsp ++ [response st n] ∧ (st, t.phase) ∈ transitions i s ∧
    (st ≠ .ok → t.phase = s.phase → SameRegisters s t)

section
variable {i : Instr} {s u : State} (hrsp : u.rsp = s.rsp)
include hrsp

theorem raise_answersInTable {e : Status} (hcell : (e, u.phase) ∈ transitions i s)
    (hkeep : u.phase = s.phase → SameRegisters s u) : AnswersInTable i s (raise e u) :=
  ⟨e, 0, by simp [hrsp], hcell, fun _ => hkeep⟩

theorem complete_answersInTable (out : List Byte) (hcell : (.ok, u.phase) ∈ transitions i s) :
    AnswersInTable i s (complete out u) :=
  ⟨.ok, out.length, by simp [hrsp], hcell, fun h => absurd rfl h⟩

end

/-- Outside Fresh OPEN fails by a length or by the core (R118). -/
theorem openStatus_of_failed {klen ivlen : Nat} {s : State} (hp : s.phase ≠ .fresh)
    (h : openStatus klen ivlen s ≠ .ok) :
    openStatus klen ivlen s = .invalidKeyLength ∨ openStatus klen ivlen s = .invalidIvLength ∨
      openStatus klen ivlen s = .cipherInitFailure := by
  unfold openStatus at h ⊢
  rw [if_neg hp] at h ⊢
  split_ifs at h ⊢
  · exact .inl rfl
  · exact .inr (.inl rfl)
  · cases ha : initAnswer s with
    | ok => simp [ha] at h
    | fail => exact .inr (.inr rfl)

theorem openStatus_mem_transitions {dir : Dir} {klen ivlen : Nat} {s : State}
    (h : openStatus klen ivlen s ≠ .ok) :
    (openStatus klen ivlen s, s.phase) ∈ transitions (.openCtx dir klen ivlen) s := by
  cases hp : s.phase with
  | fresh => simp [openStatus, transitions, hp]
  | idle | finalized =>
    rcases openStatus_of_failed (by simp [hp]) h with hst | hst | hst <;> simp [transitions, hp, hst]

theorem openStatus_ok_mem_transitions {dir : Dir} {klen ivlen : Nat} {s : State}
    (h : openStatus klen ivlen s = .ok) : (.ok, .fresh) ∈ transitions (.openCtx dir klen ivlen) s := by
  cases hp : s.phase with
  | fresh => simp [openStatus, hp] at h
  | idle | finalized => simp [transitions, hp]

theorem openChecked_answersInTable (dir : Dir) (klen ivlen : Nat) (kb iv : List Byte) (s : State) :
    AnswersInTable (.openCtx dir klen ivlen) s (openChecked dir klen ivlen kb iv s) := by
  rcases openChecked_by_status dir klen ivlen kb iv s with ⟨hst, u, rfl | rfl, he⟩ | ⟨hst, he⟩ <;> rw [he]
  · exact raise_answersInTable rfl (openStatus_mem_transitions hst) fun _ => sameRegisters_refl _
  · exact raise_answersInTable (by simp) (by simpa using openStatus_mem_transitions hst)
      fun _ => by simp [SameRegisters]
  · exact complete_answersInTable (by simp) [] (openStatus_ok_mem_transitions hst)

theorem updateChecked_answersInTable (len : Nat) (chunk : List Byte) (s : State) :
    AnswersInTable (.update len) s (updateChecked chunk s) := by
  cases hp : s.phase with
  | idle =>
    simp only [updateChecked, hp]
    exact raise_answersInTable rfl (by simp [transitions, hp]) fun _ => sameRegisters_refl s
  | finalized =>
    simp only [updateChecked, hp]
    exact raise_answersInTable rfl (by simp [transitions, hp]) fun _ => sameRegisters_refl s
  | fresh =>
    rw [updateChecked_fresh chunk s hp]
    exact complete_answersInTable (by rw [chunker_frame s.dir chunk s]) _ (by simp [transitions, hp])

theorem execFinish_answersInTable {s t : State} (h : execFinish s = .next t) :
    AnswersInTable .finish s t := by
  rcases execFinish_cases s with ⟨hp, he⟩ | ⟨hp, he⟩ | ⟨hp, hdir, he⟩ | ⟨hp, hdir, he⟩
  all_goals cases he.symm.trans h
  · exact raise_answersInTable (by rfl) (by simp [transitions, hp]) fun _ => sameRegisters_refl s
  · exact raise_answersInTable (by rfl) (by simp [transitions, hp]) fun _ => sameRegisters_refl s
  · exact complete_answersInTable (by rfl) _ (by simp [transitions, hp, hdir])
  · rcases finishDec_cases s with ⟨-, hd⟩ | ⟨-, -, hd⟩ | ⟨v, -, -, hd⟩ <;> rw [hd]
    · exact raise_answersInTable (by rfl) (by simp [transitions, hp, hdir]) (by simp [hp])
    · exact raise_answersInTable (by rfl) (by simp [transitions, hp, hdir]) (by simp [hp])
    · exact complete_answersInTable (by rfl) v (by simp [transitions, hp, hdir])

theorem execAbandon_answersInTable {s t : State} (h : execAbandon s = .next t) :
    AnswersInTable .abandon s t := by
  cases h
  exact complete_answersInTable (by dsimp only; split <;> rfl) [] (by simp [transitions])

/-- Every command that completes stays within its cell of the table (R111). -/
theorem exec_answersInTable {i : Instr} {s t : State} (h : exec i s = .next t) :
    AnswersInTable i s t := by
  cases i with
  | openCtx dir klen ivlen =>
    obtain ⟨-, rfl⟩ := execOpen_eq_next.1 h
    exact openChecked_answersInTable dir klen ivlen _ _ { s with din := s.din.drop (klen + ivlen) }
  | update len =>
    obtain ⟨-, rfl⟩ := execUpdate_eq_next.1 h
    exact updateChecked_answersInTable len _ { s with din := s.din.drop len }
  | finish => exact execFinish_answersInTable h
  | abandon => exact execAbandon_answersInTable h

/-- Settles O17: a command with its payload there completes, within the table; an illegal descriptor
raises IllegalCommand and nothing else. -/
theorem phaseTransitionTable : Obligations.PhaseTransitionTable := by
  constructor
  · intro i s hlen
    obtain ⟨t, ht⟩ := exec_completes hlen
    obtain ⟨st, n, htable⟩ := exec_answersInTable ht
    exact ⟨t, st, n, ht, htable⟩
  · rintro s d rest hreset hcmd ⟨e, hd⟩
    exact ⟨_, step_illegal hreset hcmd hd, rfl, sameRegisters_refl s⟩

end Sys2Proof.Machine

/-! SUPPORT. The update rules of 41_update.md: UPDATE with its chunk on DIN as one run of the chunker, its
closed form in both directions (R135, R137), streaming transparency (R133), the empty chunk (R132), and
the chaining of blocks (R138 to R140). -/

namespace Sys2Proof.Machine

open Sys2Proof

/-! ### UPDATE with its chunk on DIN -/

/-- A Fresh UPDATE whose chunk leads DIN runs the chunker of `dir` on it and leaves the rest (R131). -/
theorem exec_update_append {s : State} {chunk rest : List Byte} (hp : s.phase = .fresh)
    (hdin : s.din = chunk ++ rest) :
    exec (.update chunk.length) s =
      .next (withPorts (chunker s.dir chunk s).2 rest (s.dout ++ (chunker s.dir chunk s).1)
        (s.rsp ++ [response .ok (chunker s.dir chunk s).1.length])) := by
  have hchunk : s.din.take chunk.length = chunk := by simp [hdin]
  have hrest : s.din.drop chunk.length = rest := by simp [hdin]
  have h := exec_update_fresh s chunk.length hp (by simp [hdin])
  rwa [hchunk, hrest] at h

/-- The sequence S of R135 and R137 has a byte for each valid byte of CARRY and each byte of the chunk. -/
theorem carryBytes_append_length {s : State} (chunk : List Byte) (h : s.carryLen.toNat ≤ 16) :
    (carryBytes s ++ chunk).length = s.carryLen.toNat + chunk.length := by
  rw [List.length_append, carryBytes_len_le s h]

/-- Settles O32: the chunker's closed form, with its output and the rest of DIN on the ports. -/
theorem updateEncryptClosedForm : Obligations.UpdateEncryptClosedForm := by
  intro s chunk rest hp hd hl hdin bytes m blocks
  have hexec := exec_update_append hp hdin
  obtain ⟨hout, hcarry, hlen, hchain, reqs, hreqs, hcount, hkind⟩ := updateEnc_spec chunk s hl
  rw [carryBytes_append_length chunk (by omega)] at hout hcarry hlen hchain hcount
  have hblocks : (bytesOfBlocks blocks).length = 16 * m := by
    rw [bytesOfBlocks_length, cbcEncrypt_length, blocksOf_length]
  simp only [hd, chunker, hout] at hexec
  exact ⟨_, reqs, hexec, rfl, by rw [← hblocks], hblocks, hlen, hcarry, hchain, hreqs, hcount, hkind, rfl⟩

/-- Settles O33: as in direction Encrypt, with the last block of the sequence held back in CARRY. -/
theorem updateDecryptClosedForm : Obligations.UpdateDecryptClosedForm := by
  intro s chunk rest hp hd hl hdin bytes n m blocks
  have hexec := exec_update_append hp hdin
  obtain ⟨hout, hcarry, hlen, hchain, reqs, hreqs, hcount, hkind⟩ := updateDec_spec chunk s hl
  rw [carryBytes_append_length chunk hl] at hout hcarry hlen hchain hcount
  have hblocks : (bytesOfBlocks blocks).length = 16 * m := by
    rw [bytesOfBlocks_length, cbcDecrypt_length, blocksOf_length]
  simp only [hd, chunker, hout] at hexec
  exact ⟨_, reqs, hexec, rfl, by rw [← hblocks], hblocks, hlen, hcarry, hchain, hreqs, hcount, hkind, rfl⟩

/-! ### Streaming transparency (R133) -/

/-- Settles O35: either sequence is one chunk of the same bytes, so only the responses tell. -/
theorem chunkingInvariance : Obligations.ChunkingInvariance := by
  intro s lens lens' hp hsum hlen
  obtain ⟨r, hrun⟩ := runUpdates_fresh lens s hp hlen
  obtain ⟨r', hrun'⟩ := runUpdates_fresh lens' s hp (hsum ▸ hlen)
  rw [← hsum] at hrun'
  exact ⟨_, _, hrun, hrun', by simpa using hp, sameButVoid_refl _⟩

/-! ### The empty chunk (R132) -/

@[simp] theorem chunker_nil (d : Dir) (s : State) : chunker d [] s = ([], s) := by cases d <;> rfl

section
variable {s : State} {len : Nat} (hlen : len ≤ s.din.length)
include hlen

theorem exec_update_of_idle (hp : s.phase = .idle) :
    exec (.update len) s = .next (raise .noContext { s with din := s.din.drop len }) :=
  execUpdate_eq_next.2 ⟨hlen, by simp [updateChecked, hp]⟩

theorem exec_update_of_finalized (hp : s.phase = .finalized) :
    exec (.update len) s = .next (raise .contextFinalized { s with din := s.din.drop len }) :=
  execUpdate_eq_next.2 ⟨hlen, by simp [updateChecked, hp]⟩

end

/-- Settles O34: a Fresh context runs the chunker on no byte, and any other phase raises its error. -/
theorem zeroLengthUpdateChangesNothing : Obligations.ZeroLengthUpdateChangesNothing := by
  intro s
  cases hp : s.phase with
  | idle => simp [exec_update_of_idle (Nat.zero_le _) hp, raise, respond, hp, response, statusCode]
  | finalized =>
    simp [exec_update_of_finalized (Nat.zero_le _) hp, raise, respond, hp, response, statusCode]
  | fresh =>
    have h := exec_update_append (chunk := []) hp (List.nil_append _).symm
    simpa [withPorts, hp, response, statusCode] using h

/-! ### Block chaining (R138 to R140) -/

/-- Settles O40: the core gives `p` combined with the chaining value back, and combining with the same
value once more leaves `p`. -/
theorem decryptBlockUndoesEncryptBlock : Obligations.DecryptBlockUndoesEncryptBlock := by
  intro p s u hinv hcore hkey hchain
  refine ⟨?_, rfl⟩
  calc (cbcDecBlock (cbcEncBlock p s).1 u).1
      = xorBlock (coreDec s.core s.key (coreEnc s.core s.key (xorBlock p s.chain))) s.chain := by
        simp [hcore, hkey, hchain]
    _ = p := by rw [hinv, xorBlock_xorBlock]

/-- Each plaintext block is made of its ciphertext block and the one before it, the IV coming
first (R140). -/
theorem cbcDecrypt_eq_zipWith (core : AttachedCore) (key : Key) (iv : Block) (cs : List Block) :
    cbcDecrypt core key iv cs =
      List.zipWith (fun c prev => xorBlock (coreDec core key c) prev) cs (iv :: cs) := by
  induction cs generalizing iv with
  | nil => rfl
  | cons c cs ih => rw [cbcDecrypt, ih, List.zipWith_cons_cons]

/-- Encryption goes on after the first plaintext blocks from the last of their ciphertext blocks (R138). -/
theorem cbcEncrypt_append (core : AttachedCore) (key : Key) (iv : Block) (ps qs : List Block) :
    cbcEncrypt core key iv (ps ++ qs) =
      cbcEncrypt core key iv ps ++ cbcEncrypt core key (lastBlock iv (cbcEncrypt core key iv ps)) qs := by
  induction ps generalizing iv with
  | nil => rfl
  | cons p ps ih => simp only [List.cons_append, cbcEncrypt, ih, lastBlock_cons]

/-- The block before block `j` of a stream, the IV coming first. -/
theorem getElem?_iv_cons {cs : List Block} {j : Nat} (iv : Block) (hj : j < cs.length) :
    (iv :: cs)[j]? = some (if j = 0 then iv else cs.getD (j - 1) iv) := by
  cases j with
  | zero => rfl
  | succ k => simp [List.getD_eq_getElem?_getD, List.getElem?_eq_getElem (Nat.lt_of_succ_lt hj)]

/-- Settles O41: plaintext is made block by block of neighbours, and later plaintext only appends. -/
theorem blockDependencies : Obligations.BlockDependencies := by
  constructor
  · intro core key iv cs j c hc
    obtain ⟨hj, -⟩ := List.getElem?_eq_some_iff.1 hc
    simp only [cbcDecrypt_eq_zipWith, List.getElem?_zipWith, hc, getElem?_iv_cons iv hj]
  · intro core key iv ps qs
    rw [cbcEncrypt_append]
    exact List.take_left' (cbcEncrypt_length core key iv ps)

end Sys2Proof.Machine

/-! SUPPORT. The padding rules of 42_finish.md: Pad (R153), Unpad (R156), that they undo each other, and
how many blocks Unpad accepts (R161). -/

namespace Sys2Proof.Machine

open Sys2Proof

/-! ### Pad (R153) -/

/-- The `n` padding bytes of value `n` (R153). -/
abbrev padding (n : Nat) : List Byte := List.replicate n (BitVec.ofNat 8 n)

/-- A remainder of at most 15 bytes is its own length modulo 16. -/
theorem pad_eq {r : List Byte} (hr : r.length ≤ 15) : pad r = bytesOf 16 (r ++ padding (16 - r.length)) := by
  simp only [pad, Nat.mod_eq_of_lt (Nat.lt_succ_of_le hr)]

/-- Settles O43: with its padding a remainder is a whole block. -/
theorem padAppendsLengthBytes : Obligations.PadAppendsLengthBytes := by
  intro r hr
  rw [pad_eq hr]
  exact toList_bytesOf (by simp; omega)

/-! ### Unpad (R156) -/

/-- The last byte of a block that ends in bytes of one value. -/
theorem getElem_last_of_toList_eq {x : Block} {v : List Byte} {n : Nat} {b : Byte} (hn : 1 ≤ n)
    (hlen : v.length = 16 - n) (hx : x.toList = v ++ List.replicate n b) : x[15] = b := by
  have hlast : x.toList[15]? = some b := by
    rw [hx, List.getElem?_append_right (by omega), List.getElem?_replicate_of_lt (by omega)]
  simpa using hlast

/-- The check of R156, in terms of the last byte. -/
theorem unpad_eq_some_iff_last (x : Block) (v : List Byte) : unpad x = some v ↔
    (1 ≤ x[15].toNat ∧ x[15].toNat ≤ 16) ∧ v.length = 16 - x[15].toNat ∧
      x.toList = v ++ List.replicate x[15].toNat x[15] := by
  have hx : x.toList.length = 16 := by simp
  unfold unpad
  generalize x[15] = last
  constructor
  · intro h
    dsimp only at h
    split_ifs at h with hrange hall
    cases h
    have htail : x.toList.drop (16 - last.toNat) = List.replicate last.toNat last :=
      List.eq_replicate_iff.2 ⟨by simp; omega, by simpa using hall⟩
    exact ⟨by omega, by simp, by rw [← htail, List.take_append_drop]⟩
  · rintro ⟨⟨h1, h16⟩, hlen, hsplit⟩
    rw [if_neg (by omega), hsplit, ← hlen]
    simp

/-- Settles O44: N is the last byte's value, and any block that ends in N bytes of value N has that
last byte. -/
theorem unpadAcceptsExactlyValidPadding : Obligations.UnpadAcceptsExactlyValidPadding := by
  intro x v
  rw [unpad_eq_some_iff_last]
  constructor
  · rintro ⟨⟨h1, h16⟩, hlen, hx⟩
    exact ⟨_, h1, h16, hlen, by simpa using hx⟩
  · rintro ⟨n, h1, h16, hlen, hx⟩
    have hlast : x[15].toNat = n := by
      rw [getElem_last_of_toList_eq h1 hlen hx, BitVec.toNat_ofNat, Nat.mod_eq_of_lt (by omega)]
    refine ⟨by omega, by omega, ?_⟩
    rw [hlast, hx, ← hlast]
    simp

/-- Settles O45: Pad leaves the remainder before N bytes of value N. -/
theorem unpadUndoesPad : Obligations.UnpadUndoesPad := fun r hr =>
  (unpadAcceptsExactlyValidPadding (pad r) r).2
    ⟨16 - r.length, by omega, by omega, by omega, padAppendsLengthBytes r hr⟩

/-- What Unpad returns lacks at least one byte of a block, and its padded block is the one it came
from. -/
theorem pad_of_unpad_eq_some {x : Block} {v : List Byte} (h : unpad x = some v) :
    v.length ≤ 15 ∧ pad v = x := by
  obtain ⟨n, h1, h16, hlen, hx⟩ := (unpadAcceptsExactlyValidPadding x v).1 h
  have hv : v.length ≤ 15 := by omega
  have hn : 16 - v.length = n := by omega
  exact ⟨hv, Vector.toList_inj.1 (by rw [padAppendsLengthBytes v hv, hn, hx])⟩

/-! ### The accepted blocks (R161) -/

/-- The accepted block with these `k` bytes before its padding. -/
def paddedBlock (v : (k : Fin 16) × List.Vector Byte k) : { x : Block // (unpad x).isSome = true } :=
  ⟨pad v.2.toList, by rw [unpadUndoesPad _ (by simp; omega)]; rfl⟩

/-- Every accepted block is one remainder of 0 to 15 bytes, padded. -/
theorem paddedBlock_bijective : Function.Bijective paddedBlock := by
  constructor
  · rintro ⟨⟨k, hk⟩, l, hl⟩ ⟨⟨k', hk'⟩, l', hl'⟩ h
    have hpad : pad l = pad l' := Subtype.mk.inj h
    dsimp only at hl hl'
    subst hl hl'
    have hll : some l = some l' := by
      rw [← unpadUndoesPad l (by omega), hpad, unpadUndoesPad l' (by omega)]
    cases hll
    rfl
  · rintro ⟨x, hx⟩
    obtain ⟨v, hv⟩ := Option.isSome_iff_exists.1 hx
    obtain ⟨hlen, hpad⟩ := pad_of_unpad_eq_some hv
    exact ⟨⟨⟨v.length, by omega⟩, v, rfl⟩, Subtype.ext hpad⟩

theorem card_byteVector (k : Nat) : Nat.card (List.Vector Byte k) = 256 ^ k := by
  have hbyte : Fintype.card Byte = 256 := by
    rw [Fintype.card_congr (BitVec.equivFin (m := 8)).toEquiv, Fintype.card_fin]
    rfl
  rw [Nat.card_eq_fintype_card, card_vector, hbyte]

/-- Settles O46: there is one accepted block for each sequence of 0 to 15 bytes. -/
theorem acceptedBlocksCount : Obligations.AcceptedBlocksCount := by
  unfold Obligations.AcceptedBlocksCount
  calc Nat.card { x : Block // (unpad x).isSome = true }
      = Nat.card ((k : Fin 16) × List.Vector Byte k) :=
        (Nat.card_congr (Equiv.ofBijective _ paddedBlock_bijective)).symm
    _ = ∑ k : Fin 16, 256 ^ (k : Nat) := by simp only [Nat.card_sigma, card_byteVector]
    _ = ∑ n ∈ Finset.Icc 1 16, 256 ^ (16 - n) := by decide

end Sys2Proof.Machine

/-! SUPPORT. The FINISH rules of 42_finish.md on a Fresh context: the padded block of direction Encrypt
(R152), the three outcomes of direction Decrypt (R155), and the length verdict since OPEN (R158). -/

namespace Sys2Proof.Machine

open Sys2Proof

section
variable {s : State} (hp : s.phase = .fresh)
include hp

theorem exec_finish_of_encrypt (hd : s.dir = .encrypt) : exec .finish s = .next (finishEnc s) := by
  simp [exec, execFinish, hp, hd]

theorem exec_finish_of_decrypt (hd : s.dir = .decrypt) : exec .finish s = .next (finishDec s) := by
  simp [exec, execFinish, hp, hd]

end

/-- Settles O47: the valid bytes of CARRY are the remainder that is padded. -/
theorem finishEncryptEmitsPaddedBlock : Obligations.FinishEncryptEmitsPaddedBlock := by
  intro s hp hd hl n x
  have hlen : (carryBytes s).length = s.carryLen.toNat := carryBytes_len_le s (by omega)
  have hpad : pad (carryBytes s) = bytesOf 16 (carryBytes s ++ padding n) := by
    rw [pad_eq (by omega), hlen]
  refine ⟨_, exec_finish_of_encrypt hp hd, rfl, ⟨rfl, rfl, rfl⟩, ?_⟩
  simp [finishEnc, hpad, response, statusCode, n, x]

/-- Settles O48: CARRY is not full, or Unpad refuses the decrypted block, or it returns what precedes
the padding. -/
theorem finishDecryptOutcomes : Obligations.FinishDecryptOutcomes := by
  intro s hp hd x
  have hexec := exec_finish_of_decrypt hp hd
  rcases finishDec_cases s with ⟨hl, he⟩ | ⟨hl, hu, he⟩ | ⟨v, hl, hu, he⟩ <;> rw [he] at hexec
  all_goals refine ⟨_, hexec, rfl, ⟨rfl, rfl, rfl⟩, ?_⟩
  · rw [if_pos ((eq16 _).not.1 hl)]
    simp [response, statusCode]
  · rw [if_neg (not_not.2 ((eq16 _).1 hl))]
    have hx : unpad x = none := hu
    simp [hx, response, statusCode]
  · rw [if_neg (not_not.2 ((eq16 _).1 hl))]
    have hx : unpad x = some v := hu
    simp [hx, (pad_of_unpad_eq_some hu).1]

/-- A response tells its status, whatever its OLEN (R90, R92). -/
theorem response_ne_of_status_ne {e e' : Status} (h : e ≠ e') (n n' : Nat) :
    response e n ≠ response e' n' := fun hr =>
  h (responseFieldsReadBack.2.1 e e' (by rw [← rspStatus_response e n, hr, rspStatus_response]))

/-- Settles O49: since OPEN, CARRY is full exactly after a positive multiple of 16 bytes (R29), and only
a CARRY that is not full is answered MalformedStreamLength. -/
theorem malformedLengthVerdict : Obligations.MalformedLengthVerdict := by
  intro s0 s t lens hs0 hopen hfresh hrun
  obtain ⟨-, hp, hd, hl, -⟩ := invariantsSinceOpen .decrypt s0 s t lens hs0 hopen hfresh hrun
  have hfull : t.carryLen.toNat ≠ 16 ↔ ¬ (0 < lens.sum ∧ lens.sum % 16 = 0) := by
    rw [hl]
    split <;> omega
  rw [← hfull]
  refine ⟨_, exec_finish_of_decrypt hp hd, ?_⟩
  have hword : 0x06000000#32 = response .malformedStreamLength 0 := by decide
  rw [hword]
  have hother {e : Status} (he : e ≠ .malformedStreamLength) (n : Nat) :
      t.rsp ++ [response e n] ≠ t.rsp ++ [response .malformedStreamLength 0] := fun h =>
    response_ne_of_status_ne he n 0 (List.singleton_inj.1 (List.append_cancel_left h))
  rcases finishDec_cases t with ⟨hl16, he⟩ | ⟨hl16, -, he⟩ | ⟨v, hl16, -, he⟩
  all_goals simp only [Ne, eq16] at hl16; rw [he]
  · exact ⟨iff_of_true rfl hl16, fun _ => ⟨rfl, rfl⟩⟩
  · exact ⟨iff_of_false (hother (by decide) 0) (not_not.2 hl16), fun h => absurd hl16 h⟩
  · exact ⟨iff_of_false (hother (by decide) v.length) (not_not.2 hl16), fun h => absurd hl16 h⟩

end Sys2Proof.Machine

/-! SUPPORT. Whole streams: what a session of the host comes to when it runs from a block with nothing on
its ports, ENCRYPT_STREAM and DECRYPT_STREAM (R171, R173) in closed form, and the lengths and the round trip
of 42_finish.md (R154, R159, R162). -/

namespace Sys2Proof.Machine

open Sys2Proof

/-! ### Exchanges with a block that has nothing on its ports -/

theorem clear_din_of_hostSynced {s : State} (hs : HostSynced s) : { s with din := [] } = s := by
  obtain ⟨-, hdin, -⟩ := hs
  rw [← hdin]

/-- Once the host has read the one response and the output announced in it, the ports are as they were
(R55, R179). -/
theorem clear_replies_of_hostSynced {u : State} (hu : HostSynced u) (st : Status) (out : List Byte) :
    { respond st out.length (doutPut out u) with rsp := [], dout := [] } = u := by
  obtain ⟨-, -, hdout, hrsp, -⟩ := hu
  cases u
  cases hdout
  cases hrsp
  rfl

section
variable {c : HostCommand} {s u : State} (hs : HostSynced s) (hc : c.instr.wellFormed) (hu : HostSynced u)
include hs hc hu

/-- A command that answers once, with its output, has exactly this as its reply. -/
theorem exchange_of_respond {st : Status} {out : List Byte} (hl : out.length < 2 ^ 24)
    (ht : exec c.instr { s with din := c.payload } = .next (respond st out.length (doutPut out u))) :
    exchange c s = .next (some (st, out), u) := by
  obtain ⟨-, -, hdout, hrsp, -⟩ := id hu
  have hreply := exchange_eq_next hs (decodeInvertsEncode _ hc) ht (st := st) (by simp [hrsp])
    (by simp [hdout]) hl
  rwa [clear_replies_of_hostSynced hu] at hreply

theorem exchange_of_complete {out : List Byte} (hl : out.length < 2 ^ 24)
    (ht : exec c.instr { s with din := c.payload } = .next (complete out u)) :
    exchange c s = .next (some (.ok, out), u) := exchange_of_respond hs hc hu hl ht

theorem exchange_of_raise {e : Status} (ht : exec c.instr { s with din := c.payload } = .next (raise e u)) :
    exchange c s = .next (some (e, []), u) :=
  exchange_of_respond hs hc hu (by simp) (by simpa [raise, doutPut] using ht)

end

/-! ### The commands of a stream -/

theorem chunker_hostSynced (d : Dir) (chunk : List Byte) {s : State} (hs : HostSynced s) :
    HostSynced (chunker d chunk s).2 := by
  rw [chunker_frame d chunk s]
  exact hs

theorem exchange_update {s : State} {chunk : List Byte} (hs : HostSynced s) (hp : s.phase = .fresh)
    (hinv : s.Inv) (hchunk : chunk.length ≤ maxChunk) :
    exchange ⟨.update chunk.length, chunk⟩ s =
      .next (some (.ok, (chunker s.dir chunk s).1), (chunker s.dir chunk s).2) := by
  have hout := chunker_length_le chunk hp hinv
  have hmax : chunk.length ≤ 65535 := hchunk
  refine exchange_of_complete hs hchunk (chunker_hostSynced _ _ hs) (by omega) ?_
  refine execUpdate_eq_next.2 ⟨Nat.le_refl _, ?_⟩
  simp only [List.take_length, List.drop_length]
  rw [clear_din_of_hostSynced hs, updateChecked_fresh _ _ hp]

/-- The UPDATEs of a split are one chunk to the host too (R133). -/
theorem runSession_updates {s : State} {chunks : List (List Byte)} (cs : List HostCommand) (got : List Byte)
    (hs : HostSynced s) (hp : s.phase = .fresh) (hinv : s.Inv) (hlen : ∀ c ∈ chunks, c.length ≤ maxChunk) :
    runSession (chunks.map (fun c => ⟨.update c.length, c⟩) ++ cs) got s =
      runSession cs (got ++ (chunker s.dir chunks.flatten s).1) (chunker s.dir chunks.flatten s).2 := by
  induction chunks generalizing s got with
  | nil => simp
  | cons c chunks ih =>
    obtain ⟨hc, hchunks⟩ := List.forall_mem_cons.1 hlen
    have hrest := ih (got ++ (chunker s.dir c s).1) (chunker_hostSynced s.dir c hs) (by simpa using hp)
      (chunker_keeps_inv c hp hinv) hchunks
    rw [chunker_dir, List.append_assoc] at hrest
    rw [List.map_cons, List.cons_append, runSession_ok (exchange_update hs hp hinv hc), hrest,
      List.flatten_cons, chunker_append]

/-- The context an OPEN that succeeds leaves (R117). -/
abbrev opened (dir : Dir) (key iv : List Byte) (s : State) : State := openContext dir key iv (askInit s)

theorem opened_hostSynced (dir : Dir) (key iv : List Byte) {s : State} (hs : HostSynced s) :
    HostSynced (opened dir key iv s) := by
  simpa [HostSynced] using hs

/-- A host that may open a context: none is open, nothing is on the ports, the key and the IV have their
lengths and the core initialises (R117). -/
structure CanOpen (key iv : List Byte) (s : State) : Prop where
  phase : s.phase ≠ .fresh
  synced : HostSynced s
  keyLength : key.length = 32
  ivLength : iv.length = 16
  init : initAnswer s = .ok

section
variable {key iv : List Byte} {s : State} (h : CanOpen key iv s)
include h

theorem exchange_open (dir : Dir) :
    exchange ⟨.openCtx dir key.length iv.length, key ++ iv⟩ s = .next (some (.ok, []), opened dir key iv s) := by
  obtain ⟨hp, hs, hk, hiv, ha⟩ := h
  have hwf : (Instr.openCtx dir key.length iv.length).wellFormed := by
    rw [hk, hiv]
    exact ⟨by decide, by decide⟩
  refine exchange_of_complete hs hwf (opened_hostSynced dir key iv hs) (by simp) ?_
  have hopen := exec_open_of_init_ok (s := { s with din := key ++ iv }) dir hp ha (by simp [hk, hiv])
  have hkey : (key ++ iv).take 32 = key := List.take_left' hk
  have hivs : ((key ++ iv).drop 32).take 16 = iv := by rw [List.drop_left' hk, ← hiv, List.take_length]
  have hrest : (key ++ iv).drop 48 = [] := by simp [hk, hiv]
  simp only [hkey, hivs, hrest, clear_din_of_hostSynced hs] at hopen
  rwa [hk, hiv]

/-- A stream's commands up to FINISH are one chunk put into a context just opened (R133, R171, R173). -/
theorem runSession_stream (dir : Dir) (lens : List Nat) (bytes got : List Byte) :
    runSession (streamCommands dir key iv (chunksOf lens bytes)) got s =
      runSession [⟨.finish, []⟩] (got ++ (chunker dir bytes (opened dir key iv s)).1)
        (chunker dir bytes (opened dir key iv s)).2 := by
  have hinv : (opened dir key iv s).Inv := fun _ => Nat.zero_le _
  rw [streamCommands, List.cons_append, runSession_ok (exchange_open h dir),
    runSession_updates _ _ (opened_hostSynced dir key iv h.synced) rfl hinv (chunksOf_length_le lens bytes),
    chunksOf_flatten, List.append_nil]
  rfl

end

/-! ### ENCRYPT_STREAM (R152, R154, R171) -/

/-- The blocks that are encrypted: the whole blocks of a message, then the rest of it padded (R152). -/
def plaintextBlocks (message : List Byte) : List Block :=
  blocksOf (message.length / 16) message ++ [pad (message.drop (16 * (message.length / 16)))]

theorem plaintextBlocks_length (message : List Byte) :
    (plaintextBlocks message).length = message.length / 16 + 1 := by
  simp [plaintextBlocks, blocksOf_length]

@[simp] theorem bytesOfBlocks_append (ps qs : List Block) :
    bytesOfBlocks (ps ++ qs) = bytesOfBlocks ps ++ bytesOfBlocks qs := by
  simp [bytesOfBlocks]

@[simp] theorem bytesOfBlocks_singleton (p : Block) : bytesOfBlocks [p] = p.toList := by
  simp [bytesOfBlocks]

/-- FINISH in direction Encrypt ends the session with one more ciphertext block (R152). -/
theorem runSession_finish_encrypt {t : State} (got : List Byte) (hs : HostSynced t) (hp : t.phase = .fresh)
    (hd : t.dir = .encrypt) :
    ∃ u, u.phase = .finalized ∧ HostSynced u ∧ runSession [⟨.finish, []⟩] got t = .next ⟨.complete,
      got ++ (coreEnc t.core t.key (xorBlock (pad (carryBytes t)) t.chain)).toList, u⟩ := by
  have hu : HostSynced (finalize (cbcEncBlock (pad (carryBytes t)) t).2) := by simpa [HostSynced] using hs
  have hexec : exec .finish { t with din := [] } = .next (finishEnc t) := by
    rw [clear_din_of_hostSynced hs, exec_finish_of_encrypt hp hd]
  have hreply := exchange_of_complete (c := ⟨.finish, []⟩) hs trivial hu (by simp) hexec
  exact ⟨_, rfl, hu, runSession_ok hreply⟩

/-- ENCRYPT_STREAM in any split chains the blocks of the padded message from the IV (R138, R171). -/
theorem encryptStream_eq {key iv : List Byte} {s : State} (h : CanOpen key iv s) (message : List Byte)
    (lens : List Nat) :
    ∃ t, t.phase = .finalized ∧ HostSynced t ∧
      encryptStream key iv message lens s = .next ⟨.complete, streamOf iv (bytesOfBlocks
        (cbcEncrypt s.core (bytesOf 32 key) (bytesOf 16 iv) (plaintextBlocks message))), t⟩ := by
  obtain ⟨hout : (chunker .encrypt message (opened .encrypt key iv s)).1 = _,
    hcarry : carryBytes (chunker .encrypt message (opened .encrypt key iv s)).2 = _, -,
    hchain : (chunker .encrypt message (opened .encrypt key iv s)).2.chain = _, -⟩ :=
    updateEnc_spec message (opened .encrypt key iv s) (Nat.zero_le _)
  have hempty : carryBytes (opened .encrypt key iv s) = [] := rfl
  rw [hempty, List.nil_append] at hout hcarry hchain
  obtain ⟨t, hphase, ht, hfinish⟩ := runSession_finish_encrypt
    (streamOf iv [] ++ (chunker .encrypt message (opened .encrypt key iv s)).1)
    (chunker_hostSynced .encrypt message (opened_hostSynced .encrypt key iv h.synced)) (by simp) (by simp)
  refine ⟨t, hphase, ht, ?_⟩
  rw [encryptStream, runSession_stream h, hfinish, hout, hcarry, hchain]
  simp [plaintextBlocks, cbcEncrypt_append, cbcEncrypt, streamOf]

theorem ciphertext_length (core : AttachedCore) (key : Key) (iv : Block) (message : List Byte) :
    (bytesOfBlocks (cbcEncrypt core key iv (plaintextBlocks message))).length =
      16 * (message.length / 16 + 1) := by
  rw [bytesOfBlocks_length, cbcEncrypt_length, plaintextBlocks_length]

/-- A stream of whole blocks, one at least, is of a valid length (R61, R174). -/
theorem streamLengthOk_streamOf {iv z : List Byte} {n : Nat} (hiv : iv.length = 16)
    (hz : z.length = 16 * (n + 1)) : streamLengthOk (streamOf iv z) = true := by
  simp only [streamLengthOk, streamOf, List.length_append, hiv, hz, Bool.and_eq_true, decide_eq_true_eq]
  omega

/-- Settles O51: the ciphertext has a block for each whole block of the message and one for its padded
rest. -/
theorem encryptionOutputLength : Obligations.EncryptionOutputLength := by
  intro s key iv message lens hp hs hk hiv ha
  obtain ⟨t, hphase, ht, he⟩ := encryptStream_eq ⟨hp, hs, hk, hiv, ha⟩ message lens
  have hz := ciphertext_length s.core (bytesOf 32 key) (bytesOf 16 iv) message
  exact ⟨t, _, he, hphase, ht, hz, streamLengthOk_streamOf hiv hz⟩

/-! ### DECRYPT_STREAM (R155, R159, R173) -/

/-- FINISH in direction Decrypt ends the session: by its length check, by the padding check, or with what
precedes the padding of the block held back in CARRY (R155, R175). -/
theorem runSession_finish_decrypt {t : State} (got : List Byte) (hs : HostSynced t) (hp : t.phase = .fresh)
    (hd : t.dir = .decrypt) : ∃ u, u.phase = .finalized ∧
    ((t.carryLen.toNat ≠ 16 ∧
      runSession [⟨.finish, []⟩] got t = .next ⟨.failed .malformedStreamLength, [], u⟩) ∨
    (t.carryLen.toNat = 16 ∧ unpad (xorBlock (coreDec t.core t.key t.carry) t.chain) = none ∧
      runSession [⟨.finish, []⟩] got t = .next ⟨.failed .invalidPadding, [], u⟩) ∨
    (∃ v, t.carryLen.toNat = 16 ∧ unpad (xorBlock (coreDec t.core t.key t.carry) t.chain) = some v ∧
      runSession [⟨.finish, []⟩] got t = .next ⟨.complete, got ++ v, u⟩)) := by
  have hexec : exec .finish { t with din := [] } = .next (finishDec t) := by
    rw [clear_din_of_hostSynced hs, exec_finish_of_decrypt hp hd]
  have hend : HostSynced (finalize t) := by simpa [HostSynced] using hs
  have hend' : HostSynced (finalize (cbcDecBlock t.carry t).2) := by simpa [HostSynced] using hs
  rcases finishDec_cases t with ⟨hl, he⟩ | ⟨hl, hv, he⟩ | ⟨v, hl, hv, he⟩
  all_goals rw [he] at hexec; simp only [Ne, eq16] at hl
  · have hreply := exchange_of_raise (c := ⟨.finish, []⟩) hs trivial hend hexec
    exact ⟨_, rfl, .inl ⟨hl, runSession_error hreply (by decide)⟩⟩
  · have hreply := exchange_of_raise (c := ⟨.finish, []⟩) hs trivial hend' hexec
    exact ⟨_, rfl, .inr (.inl ⟨hl, hv, runSession_error hreply (by decide)⟩)⟩
  · have hle := (pad_of_unpad_eq_some hv).1
    have hreply := exchange_of_complete (c := ⟨.finish, []⟩) hs trivial hend' (by omega) hexec
    exact ⟨_, rfl, .inr (.inr ⟨v, hl, hv, runSession_ok hreply⟩)⟩

/-- What a ciphertext has come to before FINISH, in any split: all its blocks but the last are decrypted,
and the last, whole or not, is held back in CARRY (R137). -/
theorem chunker_decrypt_opened (key iv : List Byte) (s : State) (bytes : List Byte) :
    let r := chunker .decrypt bytes (opened .decrypt key iv s)
    let m := (bytes.length - 1) / 16
    r.1 = bytesOfBlocks (cbcDecrypt s.core (bytesOf 32 key) (bytesOf 16 iv) (blocksOf m bytes)) ∧
      carryBytes r.2 = bytes.drop (16 * m) ∧
      r.2.carryLen.toNat = (if bytes.length = 0 then 0 else (bytes.length - 1) % 16 + 1) ∧
      r.2.chain = lastBlock (bytesOf 16 iv) (blocksOf m bytes) := by
  obtain ⟨hout, hcarry, hlen, hchain, -⟩ :=
    updateDec_spec bytes (opened .decrypt key iv s) (Nat.zero_le _)
  have hempty : carryBytes (opened .decrypt key iv s) = [] := rfl
  rw [hempty, List.nil_append] at hout hcarry hlen hchain
  simp only [openContext_core, askInit_core] at hout
  exact ⟨hout, hcarry, hlen, hchain⟩

/-- Settles O52: a session that completes has passed FINISH's length check, so CARRY held a whole block,
and its padding check, so that block gave all its bytes but N. -/
theorem decryptionOutputLength : Obligations.DecryptionOutputLength := by
  intro s t key stream out knows lens hp hs hk ha h
  simp only [decryptStream, blockSize] at h
  split_ifs at h with hshort hknown
  · cases h
  · cases h
  · have hcan : CanOpen key (stream.take 16) s := ⟨hp, hs, hk, by simp; omega, ha⟩
    obtain ⟨hout, -, hlen, -⟩ := chunker_decrypt_opened key (stream.take 16) s (stream.drop 16)
    rw [runSession_stream hcan] at h
    obtain ⟨u, -, ⟨-, hf⟩ | ⟨-, -, hf⟩ | ⟨v, hl, hv, hf⟩⟩ := runSession_finish_decrypt
      ([] ++ (chunker .decrypt (stream.drop 16) (opened .decrypt key (stream.take 16) s)).1)
      (chunker_hostSynced .decrypt (stream.drop 16) (opened_hostSynced .decrypt key _ hs))
      (by simp) (by simp)
    all_goals cases hf.symm.trans h
    have hvlen := (pad_of_unpad_eq_some hv).1
    rw [hl, List.length_drop] at hlen
    split_ifs at hlen
    refine ⟨16 - v.length, by omega, by omega, ?_, ?_⟩
    · simp only [List.nil_append, hout, List.length_append, bytesOfBlocks_length, cbcDecrypt_length,
        blocksOf_length, List.length_drop]
      omega
    · simp only [streamLengthOk, Bool.and_eq_true, decide_eq_true_eq]
      omega

/-! ### Round trip (R162) -/

/-- Blocks written as bytes are read as the same blocks. -/
theorem blocksOf_bytesOfBlocks (cs : List Block) (rest : List Byte) :
    blocksOf cs.length (bytesOfBlocks cs ++ rest) = cs := by
  induction cs with
  | nil => rfl
  | cons c cs ih =>
    have hbytes : bytesOfBlocks (c :: cs) ++ rest = c.toList ++ (bytesOfBlocks cs ++ rest) := by
      simp [bytesOfBlocks]
    rw [hbytes, List.length_cons, blocksOf_succ _ _ _ (by simp), bytesOf_toList, ih]

/-- The first whole blocks of a sequence, written as bytes. -/
theorem bytesOfBlocks_blocksOf (m : Nat) (bytes : List Byte) (h : 16 * m ≤ bytes.length) :
    bytesOfBlocks (blocksOf m bytes) = bytes.take (16 * m) := by
  induction m generalizing bytes with
  | zero => rfl
  | succ m ih =>
    have hfirst : (bytes.take 16).length = 16 := List.length_take_of_le (by omega)
    calc bytesOfBlocks (blocksOf (m + 1) bytes)
        = bytesOfBlocks (bytesOf 16 (bytes.take 16) :: blocksOf m (bytes.drop 16)) := by
          rw [← blocksOf_succ m _ _ hfirst, List.take_append_drop]
      _ = bytes.take 16 ++ bytesOfBlocks (blocksOf m (bytes.drop 16)) := by
          rw [bytesOfBlocks, List.map_cons, List.flatten_cons, toList_bytesOf hfirst, bytesOfBlocks]
      _ = bytes.take (16 * (m + 1)) := by
          rw [ih _ (by simp; omega), ← List.take_add, Nat.mul_succ, Nat.add_comm]

/-- With a core that has CoreInverse, decrypting undoes encrypting, block by block (R139). -/
theorem cbcDecrypt_cbcEncrypt {core : AttachedCore} (hinv : CoreInverse core) (key : Key) (iv : Block)
    (ps : List Block) : cbcDecrypt core key iv (cbcEncrypt core key iv ps) = ps := by
  induction ps generalizing iv with
  | nil => rfl
  | cons p ps ih => simp only [cbcEncrypt, cbcDecrypt, hinv _ _, xorBlock_xorBlock, ih]

theorem bytesOfBlocks_concat_length (cs : List Block) (c : Block) :
    (bytesOfBlocks (cs ++ [c])).length = 16 * (cs.length + 1) := by
  rw [bytesOfBlocks_length, List.length_append, List.length_singleton]

/-- Where the ciphertext is whole blocks, CARRY holds the last of them before FINISH (R137). -/
theorem chunker_decrypt_blocks (key iv : List Byte) (w : State) (cs : List Block) (c : Block) :
    let r := chunker .decrypt (bytesOfBlocks (cs ++ [c])) (opened .decrypt key iv w)
    r.1 = bytesOfBlocks (cbcDecrypt w.core (bytesOf 32 key) (bytesOf 16 iv) cs) ∧ r.2.carryLen.toNat = 16 ∧
      r.2.carry = c ∧ r.2.chain = lastBlock (bytesOf 16 iv) cs := by
  have hlength := bytesOfBlocks_concat_length cs c
  have hm : (16 * (cs.length + 1) - 1) / 16 = cs.length := by omega
  have hblocks : blocksOf cs.length (bytesOfBlocks (cs ++ [c])) = cs := by
    rw [bytesOfBlocks_append, blocksOf_bytesOfBlocks]
  have hrest : (bytesOfBlocks (cs ++ [c])).drop (16 * cs.length) = c.toList := by
    rw [bytesOfBlocks_append, List.drop_left' (bytesOfBlocks_length cs), bytesOfBlocks_singleton]
  obtain ⟨hout, hcarry, hlen, hchain⟩ := chunker_decrypt_opened key iv w (bytesOfBlocks (cs ++ [c]))
  rw [hlength, hm, hblocks] at hout hchain
  rw [hlength, hm, hrest] at hcarry
  rw [hlength, if_neg (by omega)] at hlen
  have hfull := hlen.trans (show (16 * (cs.length + 1) - 1) % 16 + 1 = 16 by omega)
  exact ⟨hout, hfull, by rw [← bytesOf_carry _ hfull, hcarry, bytesOf_toList], hchain⟩

/-- DECRYPT_STREAM of whole blocks in any split: the last block, decrypted, loses its padding, and the
blocks before it are put out as they decrypt (R139, R155). -/
theorem decryptStream_blocks {key iv v : List Byte} {w : State} (h : CanOpen key iv w) (cs : List Block)
    (c : Block) (knows : Bool) (lens : List Nat)
    (hv : unpad (xorBlock (coreDec w.core (bytesOf 32 key) c) (lastBlock (bytesOf 16 iv) cs)) = some v) :
    ∃ u, decryptStream key (streamOf iv (bytesOfBlocks (cs ++ [c]))) knows lens w = .next ⟨.complete,
      bytesOfBlocks (cbcDecrypt w.core (bytesOf 32 key) (bytesOf 16 iv) cs) ++ v, u⟩ := by
  have hlength := bytesOfBlocks_concat_length cs c
  have hlong : ¬ (streamOf iv (bytesOfBlocks (cs ++ [c]))).length < blockSize := by
    simp [streamOf, h.ivLength]
  have hiv : (streamOf iv (bytesOfBlocks (cs ++ [c]))).take blockSize = iv := List.take_left' h.ivLength
  have hrest : (streamOf iv (bytesOfBlocks (cs ++ [c]))).drop blockSize = bytesOfBlocks (cs ++ [c]) :=
    List.drop_left' h.ivLength
  rw [decryptStream, if_neg hlong, streamLengthOk_streamOf h.ivLength hlength, hiv, hrest, Bool.not_true,
    Bool.and_false, if_neg Bool.false_ne_true, runSession_stream h]
  obtain ⟨hout, hfull, hcarry, hchain⟩ := chunker_decrypt_blocks key iv w cs c
  obtain ⟨u, -, ⟨hne, -⟩ | ⟨-, hnone, -⟩ | ⟨v', -, hv', hf⟩⟩ := runSession_finish_decrypt
    ([] ++ (chunker .decrypt (bytesOfBlocks (cs ++ [c])) (opened .decrypt key iv w)).1)
    (chunker_hostSynced .decrypt (bytesOfBlocks (cs ++ [c])) (opened_hostSynced .decrypt key iv h.synced))
    (by simp) (by simp)
  · exact absurd hfull hne
  · rw [hcarry, hchain] at hnone
    cases hnone.symm.trans (by simpa using hv)
  · rw [hcarry, hchain] at hv'
    cases hv'.symm.trans (by simpa using hv)
    exact ⟨u, by rw [hf, hout, List.nil_append]⟩

/-- With CoreInverse the last ciphertext block gives back the remainder that was padded. -/
theorem unpad_decrypted_pad {core : AttachedCore} (hinv : CoreInverse core) (key : Key) (chain : Block)
    {r : List Byte} (hr : r.length ≤ 15) :
    unpad (xorBlock (coreDec core key (coreEnc core key (xorBlock (pad r) chain))) chain) = some r := by
  rw [hinv, xorBlock_xorBlock, unpadUndoesPad r hr]

/-- Settles O53: the last ciphertext block decrypts to the padded rest of the message, and the blocks
before it to the message's whole blocks. -/
theorem encryptThenDecryptRoundTrip : Obligations.EncryptThenDecryptRoundTrip := by
  intro s key iv message lens hinv hp hs hk hiv ha
  obtain ⟨t, -, -, he⟩ := encryptStream_eq ⟨hp, hs, hk, hiv, ha⟩ message lens
  refine ⟨t, _, he, ciphertext_length .., fun w knows lens' hcore hwp hws hwa => ?_⟩
  have hrest : (message.drop (16 * (message.length / 16))).length ≤ 15 := by
    rw [List.length_drop]
    omega
  have hwhole : bytesOfBlocks (blocksOf (message.length / 16) message) =
      message.take (16 * (message.length / 16)) := bytesOfBlocks_blocksOf _ _ (by omega)
  rw [← hcore] at hinv ⊢
  obtain ⟨u, hu⟩ := decryptStream_blocks ⟨hwp, hws, hk, hiv, hwa⟩
    (cbcEncrypt w.core (bytesOf 32 key) (bytesOf 16 iv) (blocksOf (message.length / 16) message)) _ knows lens'
    (unpad_decrypted_pad hinv (bytesOf 32 key) _ hrest)
  rw [cbcDecrypt_cbcEncrypt hinv, hwhole, List.take_append_drop] at hu
  rw [plaintextBlocks, cbcEncrypt_append]
  exact ⟨u, hu⟩

end Sys2Proof.Machine

/-! SUPPORT. What a host has after a session that does not come to its end: the verdict on a stream of
invalid length (R158, R174), and that a session which fails or is given up keeps no output and leaves no
context open (R175, R179, R229). -/

namespace Sys2Proof.Machine

open Sys2Proof

/-! ### Streams of invalid length (R174) -/

theorem streamLengthOk_iff (stream : List Byte) :
    streamLengthOk stream = true ↔ 32 ≤ stream.length ∧ (stream.length - 16) % 16 = 0 := by
  simp [streamLengthOk]

/-- Of a stream that is not valid, CARRY never holds a whole block when FINISH comes (R137). -/
theorem carryLen_ne_of_invalid_length (key : List Byte) (s : State) {stream : List Byte}
    (hbad : streamLengthOk stream = false) :
    (chunker .decrypt (stream.drop 16) (opened .decrypt key (stream.take 16) s)).2.carryLen.toNat ≠ 16 := by
  obtain ⟨-, -, hlen, -⟩ := chunker_decrypt_opened key (stream.take 16) s (stream.drop 16)
  have hinvalid : ¬ (32 ≤ stream.length ∧ (stream.length - 16) % 16 = 0) := by
    rw [← streamLengthOk_iff, hbad]
    decide
  rw [hlen, List.length_drop]
  split <;> omega

/-- A host that does not know the length learns from FINISH that a stream is not valid (R158, R174). -/
theorem decryptStream_invalid_length {key stream : List Byte} {s : State}
    (h : CanOpen key (stream.take 16) s) (lens : List Nat) (hiv : 16 ≤ stream.length)
    (hbad : streamLengthOk stream = false) :
    ∃ t, decryptStream key stream false lens s = .next ⟨.failed .malformedStreamLength, [], t⟩ ∧
      t.phase = .finalized := by
  have hne := carryLen_ne_of_invalid_length key s hbad
  obtain ⟨u, hphase, ⟨-, hf⟩ | ⟨heq, -⟩ | ⟨_, heq, -⟩⟩ := runSession_finish_decrypt
    ([] ++ (chunker .decrypt (stream.drop 16) (opened .decrypt key (stream.take 16) s)).1)
    (chunker_hostSynced .decrypt (stream.drop 16) (opened_hostSynced .decrypt key _ h.synced))
    (by simp) (by simp)
  · refine ⟨u, ?_, hphase⟩
    rw [decryptStream, if_neg (Nat.not_lt.2 hiv), Bool.false_and, if_neg Bool.false_ne_true,
      runSession_stream h, hf]
  · exact absurd heq hne
  · exact absurd heq hne

/-- Settles O54: the host's own checks come before any command, and without them FINISH finds no whole
block in CARRY. -/
theorem invalidStreamIsRejected : Obligations.InvalidStreamIsRejected := by
  intro key stream lens s
  refine ⟨streamLengthOk_iff stream, fun hshort knows => ?_, fun hiv hbad => ⟨?_, fun hp hs hk ha => ?_⟩⟩
  · rw [decryptStream, if_pos hshort]
  · simp [decryptStream, Nat.not_lt.2 hiv, hbad]
  · exact decryptStream_invalid_length ⟨hp, hs, hk, List.length_take_of_le hiv, ha⟩ lens hiv hbad

/-! ### The size of a reply

OLEN holds the output of every command, in whatever state the session began: outside the bounds of
`carry_len` too a byte of a chunk puts out at most one block. -/

theorem encByte_length_le (b : Byte) (s : State) : (encByte b s).1.length ≤ 16 := by
  dsimp only [encByte]
  split <;> simp

theorem decByte_length_le (b : Byte) (s : State) : (decByte b s).1.length ≤ 16 := by
  dsimp only [decByte]
  split <;> simp

theorem chunker_length_le_of_any_state (d : Dir) (chunk : List Byte) (s : State) :
    (chunker d chunk s).1.length ≤ 16 * chunk.length := by
  induction chunk generalizing s with
  | nil => simp
  | cons b chunk ih =>
    have hbyte : (chunker d [b] s).1.length ≤ 16 := by
      cases d with
      | encrypt => simpa [chunker, updateEnc] using encByte_length_le b s
      | decrypt => simpa [chunker, updateDec] using decByte_length_le b s
    have hrest := ih (chunker d [b] s).2
    rw [← List.singleton_append, chunker_append]
    simp only [List.length_append, List.length_singleton]
    omega

/-- Beside a block for each payload byte, FINISH puts out one block, and the other commands none. -/
theorem exec_dout_length_le {i : Instr} {s t : State} (h : exec i s = .next t) :
    t.dout.length ≤ s.dout.length + 16 * (payloadLen i + 1) := by
  cases i with
  | openCtx dir klen ivlen =>
    obtain ⟨-, hdout, -⟩ := openFrame dir klen ivlen s t h
    rw [hdout]
    omega
  | update len =>
    obtain ⟨hlen, rfl⟩ := execUpdate_eq_next.1 h
    rcases updateChecked_cases (s.din.take len) { s with din := s.din.drop len } with
      ⟨-, e, -, he⟩ | ⟨-, he⟩ <;> rw [he]
    · simp
    · have hout := chunker_length_le_of_any_state s.dir (s.din.take len) { s with din := s.din.drop len }
      rw [List.length_take_of_le hlen] at hout
      rw [complete_dout, List.length_append, chunker_frame s.dir]
      simp only [payloadLen]
      omega
  | finish =>
    obtain ⟨st, out, ha, hout⟩ := execFinish_answers h
    rw [ha.dout, List.length_append]
    omega
  | abandon =>
    obtain ⟨-, -, hdout, -⟩ := abandonFrame s t h
    rw [hdout]
    omega

theorem payloadLen_le_of_wellFormed {i : Instr} (h : i.wellFormed) : payloadLen i ≤ 65535 := by
  cases i with
  | openCtx dir klen ivlen =>
    obtain ⟨hk, hiv⟩ : klen < 2 ^ 8 ∧ ivlen < 2 ^ 8 := h
    simp only [payloadLen]
    omega
  | update len => exact h
  | finish => exact Nat.zero_le _
  | abandon => exact Nat.zero_le _

/-! ### Every exchange ends with a reply (R55, R179) -/

/-- No command writes CMD or the reset line (R35). -/
theorem exec_keeps_cmd_and_reset {i : Instr} {s t : State} (h : exec i s = .next t) :
    t.cmd = s.cmd ∧ t.resetReq = s.resetReq := by
  cases i with
  | openCtx dir klen ivlen =>
    obtain ⟨hcmd, -, -, hreset, -⟩ := openFrame dir klen ivlen s t h
    exact ⟨hcmd, hreset⟩
  | update len =>
    obtain ⟨-, -, -, hcmd, -, -, hreset, -⟩ := updateFrame len s t h
    exact ⟨hcmd, hreset⟩
  | finish =>
    obtain ⟨hcmd, -, -, -, hreset, -⟩ := finishFrame s t h
    exact ⟨hcmd, hreset⟩
  | abandon =>
    obtain ⟨hcmd, -, -, -, -, -, hreset, -⟩ := abandonFrame s t h
    exact ⟨hcmd, hreset⟩

/-- By the table of R111 a command that leaves the phase Fresh has answered OK or ContextBusy, both of
which the host takes to do so. -/
theorem mayBeFresh_of_mem_transitions {i : Instr} {s : State} {st : Status}
    (h : (st, Phase.fresh) ∈ transitions i s) : mayBeFresh st = true := by
  cases i with
  | openCtx dir klen ivlen => -- OK, or ContextBusy where a context was open
    cases hp : s.phase <;> simp [transitions, hp] at h <;> simp [h, mayBeFresh]
  | update len => -- OK
    cases hp : s.phase <;> simp [transitions, hp] at h
    simp [h, mayBeFresh]
  | finish => -- never leaves the phase Fresh
    cases hp : s.phase <;> cases hd : s.dir <;> simp [transitions, hp, hd] at h
  | abandon => simp [transitions] at h

/-- A command written with its payload is answered; the ports are empty again once the host has read the
reply, and a status after which the host owes no ABANDON leaves no context open (R111, R175). -/
theorem exchange_replies {c : HostCommand} {s : State} (hs : HostSynced s) (hwf : c.instr.wellFormed)
    (hpay : c.payload.length = payloadLen c.instr) :
    ∃ st out t, exchange c s = .next (some (st, out), t) ∧ HostSynced t ∧
      (mayBeFresh st = false → t.phase ≠ .fresh) := by
  obtain ⟨hcmd, -, hdout, hrsp, hreset⟩ := id hs
  obtain ⟨t, ht⟩ := exec_completes (s := { s with din := c.payload }) (Nat.le_of_eq hpay.symm)
  obtain ⟨st, out, ha, -⟩ := exec_answers ht
  obtain ⟨st', n, hrsp', hcell, -⟩ := exec_answersInTable ht
  obtain ⟨hcmd', hreset'⟩ := exec_keeps_cmd_and_reset ht
  have houtEq : t.dout = out := by rw [ha.dout, hdout, List.nil_append]
  have hrspEq : t.rsp = [response st out.length] := by rw [ha.rsp, hrsp, List.nil_append]
  have hlen : out.length < 2 ^ 24 := by
    have hle := exec_dout_length_le ht
    have hmax := payloadLen_le_of_wellFormed hwf
    rw [houtEq, hdout, List.length_nil] at hle
    omega
  have hst : st = st' := by
    by_contra hne
    rw [hrspEq, hrsp, List.nil_append] at hrsp'
    exact response_ne_of_status_ne hne _ _ (List.singleton_inj.1 hrsp')
  have hdin' : t.din = [] := by rw [ha.din, ← hpay, List.drop_length]
  refine ⟨st, out, _, exchange_eq_next hs (decodeInvertsEncode _ hwf) ht hrspEq houtEq hlen,
    ⟨hcmd'.trans hcmd, hdin', rfl, rfl, hreset'.trans hreset⟩, fun howed hfresh => ?_⟩
  have hfresh : t.phase = .fresh := hfresh
  rw [hfresh, ← hst] at hcell
  rw [mayBeFresh_of_mem_transitions hcell] at howed
  cases howed

/-! ### How a session ends (R175, R229) -/

/-- The host's own ABANDON leaves the block Idle, and the host without output (R120, R175). -/
theorem giveUp_leaves_idle (ending : Ending) {s : State} (hs : HostSynced s) :
    ∃ t, giveUp ending s = .next ⟨ending, [], t⟩ ∧ HostSynced t ∧ t.phase = .idle := by
  have hu : HostSynced { (if s.phase = .fresh then release s else s) with phase := .idle } := by
    split <;> exact hs
  have hexec : exec .abandon { s with din := [] } =
      .next (complete [] { (if s.phase = .fresh then release s else s) with phase := .idle }) := by
    rw [clear_din_of_hostSynced hs]
    rfl
  have hreply := exchange_of_complete (c := ⟨.abandon, []⟩) hs trivial hu (by simp) hexec
  exact ⟨_, by rw [giveUp, hreply], hu, rfl⟩

/-- An error ends a session with no context open: its status says so, or the host issues ABANDON (R175). -/
theorem stopOnError_leaves_nothing {st : Status} {s : State} (hs : HostSynced s)
    (hclosed : mayBeFresh st = false → s.phase ≠ .fresh) :
    ∃ t, stopOnError st s = .next ⟨.failed st, [], t⟩ ∧ HostSynced t ∧ t.phase ≠ .fresh := by
  cases howed : mayBeFresh st with
  | true =>
    obtain ⟨t, ht, hsynced, hidle⟩ := giveUp_leaves_idle (.failed st) hs
    exact ⟨t, by rw [stopOnError, if_pos howed, ht], hsynced, by simp [hidle]⟩
  | false => exact ⟨s, by simp [stopOnError, howed], hs, hclosed howed⟩

/-- A session of commands with their payloads completes, or a status that is not OK ends it and then the
host keeps nothing and no context is open (R175). -/
theorem runSession_ends {cs : List HostCommand} (got : List Byte) {s : State} (hs : HostSynced s)
    (hcs : ∀ c ∈ cs, c.instr.wellFormed ∧ c.payload.length = payloadLen c.instr) :
    ∃ t, HostSynced t ∧ ((∃ out, runSession cs got s = .next ⟨.complete, out, t⟩) ∨
      (t.phase ≠ .fresh ∧ ∃ st, st ≠ .ok ∧ runSession cs got s = .next ⟨.failed st, [], t⟩)) := by
  induction cs generalizing got s with
  | nil => exact ⟨s, hs, .inl ⟨got, rfl⟩⟩
  | cons c cs ih =>
    obtain ⟨⟨hwf, hpay⟩, hrest⟩ := List.forall_mem_cons.1 hcs
    obtain ⟨st, out, u, hreply, hu, hclosed⟩ := exchange_replies hs hwf hpay
    by_cases hst : st = .ok
    · subst hst
      rw [runSession_ok hreply]
      exact ih (got ++ out) hu hrest
    · obtain ⟨t, ht, hsynced, hphase⟩ := stopOnError_leaves_nothing hu hclosed
      exact ⟨t, hsynced, .inr ⟨hphase, st, hst, (runSession_error hreply hst).trans ht⟩⟩

/-- A session the host gives up itself ends at its own ABANDON, or at an error before it came to that
(R175, R229). -/
theorem abandonAfter_ends (n : Nat) {cs : List HostCommand} {s : State} (hs : HostSynced s)
    (hcs : ∀ c ∈ cs, c.instr.wellFormed ∧ c.payload.length = payloadLen c.instr) :
    ∃ ending t, abandonAfter n cs s = .next ⟨ending, [], t⟩ ∧ HostSynced t ∧ t.phase ≠ .fresh ∧
      (ending = .gaveUp ∨ ∃ st, st ≠ .ok ∧ ending = .failed st) := by
  obtain ⟨t, ht, ⟨out, hrun⟩ | ⟨hphase, st, hst, hrun⟩⟩ :=
    runSession_ends (cs := cs.take n) [] hs fun c hc => hcs c (List.mem_of_mem_take hc)
  · obtain ⟨u, hgive, hu, hidle⟩ := giveUp_leaves_idle .gaveUp ht
    exact ⟨.gaveUp, u, by simp [abandonAfter, hrun, hgive], hu, by simp [hidle], .inl rfl⟩
  · exact ⟨.failed st, t, by simp [abandonAfter, hrun], ht, hphase, .inr ⟨st, hst, rfl⟩⟩

/-- Settles O55: a session ends complete, at an error, or at the host's own ABANDON, and in the last two
cases without output and without a context. -/
theorem failedSessionLeavesNothing : Obligations.FailedSessionLeavesNothing := by
  intro cs got s hs hcs
  refine ⟨?_, fun n => ?_⟩
  · obtain ⟨t, ht, ⟨out, hrun⟩ | ⟨hphase, st, hst, hrun⟩⟩ := runSession_ends got hs hcs
    · exact ⟨_, hrun, ht, .inl rfl⟩
    · exact ⟨_, hrun, ht, .inr ⟨⟨st, hst, rfl⟩, rfl, hphase⟩⟩
  · obtain ⟨ending, t, hrun, ht, hphase, hend⟩ := abandonAfter_ends n hs hcs
    exact ⟨_, hrun, ht, hend, rfl, hphase⟩

end Sys2Proof.Machine

/-! SUPPORT. The error rules of 60_exceptions.md: illegal descriptors (R88, R199), what every failure leaves
as it was (R196), and the three errors of a command in the wrong phase (R194, R200, R201). -/

namespace Sys2Proof.Machine

open Sys2Proof

/-! ### Illegal descriptors (R88, R199) -/

/-- A descriptor is illegal by its opcode byte, or by a reserved bit of its opcode's format (R88). -/
theorem decode_error_iff_fields (d : Desc) : (∃ e, decode d = .error e) ↔
    (d.toNat / 2 ^ 24 ≠ 1 ∧ d.toNat / 2 ^ 24 ≠ 2 ∧ d.toNat / 2 ^ 24 ≠ 3 ∧ d.toNat / 2 ^ 24 ≠ 4) ∨
    (d.toNat / 2 ^ 24 = 1 ∧ d.toNat / 2 ^ 17 % 2 ^ 7 ≠ 0) ∨
    (d.toNat / 2 ^ 24 = 2 ∧ d.toNat / 2 ^ 16 % 2 ^ 8 ≠ 0) ∨
    ((d.toNat / 2 ^ 24 = 3 ∨ d.toNat / 2 ^ 24 = 4) ∧ d.toNat % 2 ^ 24 ≠ 0) := by
  rw [decode_nat]
  split_ifs
  · exact iff_of_false (by simp) (by omega) -- OPEN
  · exact iff_of_true ⟨_, rfl⟩ (by omega)
  · exact iff_of_false (by simp) (by omega) -- UPDATE
  · exact iff_of_true ⟨_, rfl⟩ (by omega)
  · exact iff_of_false (by simp) (by omega) -- FINISH
  · exact iff_of_true ⟨_, rfl⟩ (by omega)
  · exact iff_of_false (by simp) (by omega) -- ABANDON
  · exact iff_of_true ⟨_, rfl⟩ (by omega)
  · exact iff_of_true ⟨_, rfl⟩ (by omega) -- no such opcode byte

/-- Settles O4: illegal are a wrong opcode byte and a reserved bit, and IllegalCommand is raised in the
state with the descriptor taken. -/
theorem illegalDescriptorIsAnswered : Obligations.IllegalDescriptorIsAnswered := by
  refine fun d => ⟨decode_error_iff_fields d, ?_⟩
  rintro s rest hreset hcmd ⟨e, hd⟩
  exact step_illegal hreset hcmd hd

/-! ### What a failure leaves as it was (R196) -/

/-- One response is read as one status only (R90, R92). -/
theorem status_eq_of_rsp_eq {s t : State} {st st' : Status} {n n' : Nat}
    (h : t.rsp = s.rsp ++ [response st n]) (h' : t.rsp = s.rsp ++ [response st' n']) : st = st' := by
  by_contra hne
  exact response_ne_of_status_ne hne n n'
    (List.singleton_inj.1 (List.append_cancel_left (h.symm.trans h')))

/-- By the table of R111 a failure keeps the phase, but for the two of FINISH that end a Fresh context. -/
theorem phase_of_failed_transition {i : Instr} {s : State} {st : Status} {p : Phase}
    (h : (st, p) ∈ transitions i s) (hst : st ≠ .ok) :
    if st = .invalidPadding ∨ st = .malformedStreamLength then s.phase = .fresh ∧ p = .finalized
    else p = s.phase := by
  cases i with
  | openCtx dir klen ivlen => -- every error keeps the phase
    cases hp : s.phase <;> simp only [transitions, hp] at h <;> fin_cases h <;> simp_all
  | update len => cases hp : s.phase <;> simp_all [transitions] -- so does every error here
  | finish =>
    cases hp : s.phase with
    | fresh => -- only direction Decrypt fails, and it ends the context
      cases hd : s.dir <;> simp only [transitions, hp, hd] at h <;> fin_cases h <;> simp_all
    | idle | finalized => simp_all [transitions]
  | abandon => simp_all [transitions]

/-- A command that fails writes no output and changes no register, but for the two failures that end a
context, which release it (R196). -/
theorem exec_failed {i : Instr} {s t : State} {st : Status} {n : Nat} (h : exec i s = .next t)
    (hrsp : t.rsp = s.rsp ++ [response st n]) (hst : st ≠ .ok) :
    t.dout = s.dout ∧
      if st = .invalidPadding ∨ st = .malformedStreamLength then t.phase = .finalized ∧ Released t
      else SameRegisters s t := by
  obtain ⟨st₁, out, ha, -⟩ := exec_answers h
  obtain ⟨st₂, m, hrsp₂, hcell, hkeep⟩ := exec_answersInTable h
  obtain rfl : st₁ = st := status_eq_of_rsp_eq ha.rsp hrsp
  obtain rfl : st₂ = st₁ := status_eq_of_rsp_eq hrsp₂ hrsp
  refine ⟨by rw [ha.dout, ha.failed hst, List.append_nil], ?_⟩
  have hphase := phase_of_failed_transition hcell hst
  split_ifs at hphase ⊢
  · obtain ⟨hfresh, hfinal⟩ := hphase
    exact ⟨hfinal, (leavingFreshReleases i s t hfresh h).2 (by simp [hfinal])⟩
  · exact hkeep hst hphase

/-- Settles O18: a legal descriptor's command fails as R196 has it, and IllegalCommand is raised in the
state with the descriptor taken. -/
theorem failedCommandsKeepTheContext : Obligations.FailedCommandsKeepTheContext := by
  intro s t d rest st hreset hcmd h hrsp hst
  cases hd : decode d with
  | ok i =>
    exact exec_failed (s := { s with cmd := rest }) ((step_eq_exec hreset hcmd hd).symm.trans h) hrsp hst
  | error e =>
    cases (step_illegal hreset hcmd hd).symm.trans h
    obtain rfl : .illegalCommand = st := status_eq_of_rsp_eq (illegalCommand_rsp _) hrsp
    exact ⟨rfl, by simp [SameRegisters]⟩

/-! ### Commands in the wrong phase (R194, R200, R201) -/

/-- Busy is OPEN's first check, and its payload has been taken by then (R113, R118). -/
theorem exec_open_of_fresh (dir : Dir) {klen ivlen : Nat} {s : State} (hp : s.phase = .fresh)
    (hlen : klen + ivlen ≤ s.din.length) :
    exec (.openCtx dir klen ivlen) s =
      .next (raise .contextBusy { s with din := s.din.drop (klen + ivlen) }) :=
  execOpen_eq_next.2 ⟨hlen, by simp [openChecked, hp]⟩

/-- Settles O24: ContextBusy is raised with the payload taken, whatever the operands. -/
theorem openOnFreshIsBusy : Obligations.OpenOnFreshIsBusy := fun dir _ _ _ hp hlen =>
  exec_open_of_fresh dir hp hlen

theorem exec_finish_of_idle {s : State} (hp : s.phase = .idle) :
    exec .finish s = .next (raise .noContext s) := by
  simp [exec, execFinish, hp]

theorem exec_finish_of_finalized {s : State} (hp : s.phase = .finalized) :
    exec .finish s = .next (raise .contextFinalized s) := by
  simp [exec, execFinish, hp]

/-- Settles O38: on Idle both commands raise NoContext. -/
theorem noContextWhenIdle : Obligations.NoContextWhenIdle := fun _ _ hp hlen =>
  ⟨exec_update_of_idle hlen hp, exec_finish_of_idle hp⟩

/-- In the table of R111 ContextFinalized stands in the rows of UPDATE and FINISH only. -/
theorem eq_update_or_finish_of_contextFinalized_mem {i : Instr} {s : State} {p : Phase}
    (h : (.contextFinalized, p) ∈ transitions i s) : (∃ len, i = .update len) ∨ i = .finish := by
  cases i with
  | openCtx dir klen ivlen => cases hp : s.phase <;> simp [transitions, hp] at h
  | update len => exact .inl ⟨len, rfl⟩
  | finish => exact .inr rfl
  | abandon => simp [transitions] at h

/-- Settles O39: on Finalized UPDATE and FINISH raise ContextFinalized, and the table has it for no other
command. -/
theorem contextFinalizedAfterFinish : Obligations.ContextFinalizedAfterFinish := by
  intro s len hp hlen
  refine ⟨exec_update_of_finalized hlen hp, exec_finish_of_finalized hp, fun i t hi h hrsp => ?_⟩
  obtain ⟨st, n, hrsp', hcell, -⟩ := exec_answersInTable h
  have hword : t.rsp = s.rsp ++ [response .contextFinalized 0] := hrsp
  obtain rfl : st = .contextFinalized := status_eq_of_rsp_eq hrsp' hword
  rcases hi with rfl | ⟨dir, klen, ivlen, rfl⟩ <;>
    simpa using eq_update_or_finish_of_contextFinalized_mem hcell

/-! ### The idle block (R212) -/

/-- Settles O9: of all a step can do, only holding the state needs neither a reset nor a descriptor. -/
theorem stepIdleHoldsState : Obligations.StepIdleHoldsState := by
  intro s hreset hcmd
  rcases step_cases s with ⟨hr, -⟩ | ⟨-, -, h⟩ | ⟨d, rest, i, -, hc, -⟩ | ⟨d, rest, e, -, hc, -⟩
  · simp [hreset] at hr
  · exact h
  · simp [hcmd] at hc
  · simp [hcmd] at hc

end Sys2Proof.Machine

/-! SUPPORT. The rules of 70_reset_and_hazards.md: the reset event (R221, R222) and the bounds on core
requests (R237). -/

namespace Sys2Proof.Machine

open Sys2Proof

/-! ### Core requests (R237) -/

/-- The requests recorded from `s` to `t` are at most `n`. -/
def AddsCoreRequests (n : Nat) (s t : State) : Prop :=
  ∃ reqs, t.coreReqs = s.coreReqs ++ reqs ∧ reqs.length ≤ n

theorem addsCoreRequests_of_eq {n : Nat} {s t : State} (h : t.coreReqs = s.coreReqs) :
    AddsCoreRequests n s t := ⟨[], by simp [h], Nat.zero_le n⟩

/-- In direction Encrypt a chunk makes one request for each full block, in direction Decrypt one for
each full block that a byte follows (R135, R137). -/
theorem chunker_addsCoreRequests {s : State} (chunk : List Byte) (hp : s.phase = .fresh) (hs : s.Inv) :
    AddsCoreRequests ((s.carryLen.toNat + chunk.length) / 16) s (chunker s.dir chunk s).2 := by
  have hb := hs hp
  cases hd : s.dir with
  | encrypt =>
    have hb : s.carryLen.toNat ≤ 15 := by simpa only [hd] using hb
    obtain ⟨-, -, -, -, reqs, hreqs, hcount, -⟩ := updateEnc_spec chunk s hb
    rw [List.length_append, carryBytes_len_le s (by omega)] at hcount
    exact ⟨reqs, hreqs, hcount.le⟩
  | decrypt =>
    have hb : s.carryLen.toNat ≤ 16 := by simpa only [hd] using hb
    obtain ⟨-, -, -, -, reqs, hreqs, hcount, -⟩ := updateDec_spec chunk s hb
    rw [List.length_append, carryBytes_len_le s hb] at hcount
    exact ⟨reqs, hreqs, hcount.trans_le (Nat.div_le_div_right (Nat.sub_le _ 1))⟩

/-- UPDATE makes the requests of its chunk in Fresh, and none where it only raises an error (R131). -/
theorem updateChecked_addsCoreRequests {s : State} (chunk : List Byte) (hs : s.Inv) :
    AddsCoreRequests (maxCoreRequests (.update chunk.length) s) s (updateChecked chunk s) := by
  rcases updateChecked_cases chunk s with ⟨-, e, -, he⟩ | ⟨hp, he⟩ <;> rw [he]
  · exact addsCoreRequests_of_eq rfl
  · have hmax : maxCoreRequests (.update chunk.length) s = (s.carryLen.toNat + chunk.length) / 16 := by
      simp [maxCoreRequests, hp]
    rw [hmax]
    exact chunker_addsCoreRequests chunk hp hs

/-- FINISH makes one request for its block, and none where it fails without one (R152, R155). -/
theorem execFinish_addsCoreRequests {s t : State} (h : execFinish s = .next t) :
    AddsCoreRequests 1 s t := by
  rcases execFinish_cases s with ⟨-, he⟩ | ⟨-, he⟩ | ⟨-, -, he⟩ | ⟨-, -, he⟩
  all_goals cases he.symm.trans h
  · exact addsCoreRequests_of_eq rfl
  · exact addsCoreRequests_of_eq rfl
  · exact ⟨[_], rfl, le_rfl⟩
  · rcases finishDec_cases s with ⟨-, hd⟩ | ⟨-, -, hd⟩ | ⟨v, -, -, hd⟩ <;> rw [hd]
    · exact addsCoreRequests_of_eq rfl
    · exact ⟨[_], rfl, le_rfl⟩
    · exact ⟨[_], rfl, le_rfl⟩

/-- Settles O22: OPEN asks the core to initialise at most once, UPDATE runs a chunk or fails, FINISH
handles one block, and ABANDON touches no port but RSP. -/
theorem coreRequestsAreBounded : Obligations.CoreRequestsAreBounded := by
  intro i s t hs h
  cases i with
  | openCtx dir klen ivlen =>
    obtain ⟨-, rfl⟩ := execOpen_eq_next.1 h
    exact ⟨_, openChecked_coreReqs dir klen ivlen _ _ _, by split <;> simp [maxCoreRequests]⟩
  | update len =>
    obtain ⟨hlen, rfl⟩ := execUpdate_eq_next.1 h
    have hchunk := updateChecked_addsCoreRequests (s.din.take len) (s := { s with din := s.din.drop len }) hs
    rwa [List.length_take_of_le hlen] at hchunk
  | finish => exact execFinish_addsCoreRequests h
  | abandon =>
    obtain ⟨-, -, -, hreqs, -⟩ := abandonFrame s t h
    exact addsCoreRequests_of_eq hreqs

/-! ### Reset (R221, R222) -/

/-- Settles O10: the step serves the reset line first, and the reset event gives the reset state back but
for what is attached to the block. -/
theorem resetEventEntersIdle : Obligations.ResetEventEntersIdle := fun s =>
  ⟨_, step_hostReset s, rfl, rfl, rfl, rfl, rfl, rfl, rfl, rfl, rfl⟩

end Sys2Proof.Machine
